-- ==== Sys2Proof/Word.lean ====
section
/-! DEFINITION. The value types the ports carry (10_state.md R29, R30; 00_scope.md R9 to R11; 30_encoding.md R68 to R71, R82)
and the two plainest operations on element arrays: reading an element and building an array from its elements. -/

namespace Sys2Proof

/-- A byte-sized value, bit 0 least significant (R10, R53). -/
abbrev Byte := BitVec 8

/-- A bit vector: its elements in order, element 0 the MOST significant (R9, R52). It travels with a separate width.
On a port it has VMAX elements; an array read past its end reads 0 (`elemAt`). -/
abbrev BitVector := List Bool

/-- An instruction word: its WORD_W elements in order, element 0 the most significant (R11; UNVERIFIED, log 10). -/
abbrev Word := List Bool

/-- Element `i` of a bit vector or a word, `bv.e[i]` of R9 and R11. -/
def elemAt (v : List Bool) (i : Nat) : Bool := v.getD i false

/-- The array of `n` elements whose element `i` is `f i`. -/
def tabulate (n : Nat) (f : Nat → Bool) : List Bool := (List.range n).map f

/-- The eight instruction formats (R29, R68). -/
inductive Format where
  | one | two | three | four | five | six | seven | eight
  deriving DecidableEq, Repr

/-- The four Word Writer routines (R29, R69). -/
inductive Routine where
  | ls | arith2 | shift | io
  deriving DecidableEq, Repr

/-- The five errors a request can report (R71). Code 0 is success; codes 6 and 7 are never driven, so they have no name here. -/
inductive Err where
  /-- `err = 1`, raised by PACK only (R171). -/
  | unknownOpcode
  /-- `err = 2`, raised by PACK only (R172). -/
  | malformedOperand
  /-- `err = 3`, raised by TO_UNSIGNED only (R173). -/
  | widthOverflow
  /-- `err = 4`, an argument out of its range (R174). -/
  | invalidArgument
  /-- `err = 5`, a reserved `op` value (R175). -/
  | invalidOp
  deriving DecidableEq, Repr

/-- A registry key: a byte string of length 2 or 3 (R25). -/
inductive Key where
  | two (a b : Byte)
  | three (a b c : Byte)
  deriving DecidableEq, Repr

/-- DecodedFields, the ten byte fields of a PACK request, in the order of R30. -/
structure DecodedFields where
  generalRegister : Byte
  indexRegister : Byte
  address : Byte
  indirection : Byte
  registerX : Byte
  registerY : Byte
  count : Byte
  lr : Byte
  al : Byte
  devid : Byte
  deriving DecidableEq, Repr

/-- Every PACK request starts from all ten fields equal to 0 (R30). -/
def DecodedFields.zero : DecodedFields :=
  { generalRegister := 0, indexRegister := 0, address := 0, indirection := 0, registerX := 0,
    registerY := 0, count := 0, lr := 0, al := 0, devid := 0 }

/-- One call of a Word Writer entry point: the routine and exactly the fields that routine is passed, in the order of
R82. The opcode and the starting word are passed beside it. -/
inductive WriterCall where
  | ls (generalRegister indexRegister indirection address : Byte)
  | arith2 (registerX registerY : Byte)
  | shift (generalRegister count lr al : Byte)
  | io (generalRegister devid : Byte)
  deriving DecidableEq, Repr

end Sys2Proof
end

