-- ==== Sys2Proof/Config.lean ====
section
/-! DEFINITION. The block's configuration (00_scope.md R7, 10_state.md R25 to R28, 30_encoding.md R83, 41_packer.md R146, R147):
the parameters, the registry, the Word Writer and its layout, all plain data, and the two OPEN constants no source gives. -/

namespace Sys2Proof

/-- The width parameters of R7. -/
structure Params where
  /-- VMAX: elements on each bit-vector port, the largest legal width. -/
  vmax : Nat
  /-- INT_W: width of the integer ports. -/
  intW : Nat
  /-- LINE_MAX: character slots on the line port; it may be 0 (DESIGN CHOICE, log 19). -/
  lineMax : Nat
  /-- WORD_W: elements of a Word. -/
  wordW : Nat
  deriving DecidableEq, Repr

/-- The values of R7: VMAX = INT_W = LINE_MAX = 64 and WORD_W = 18. -/
def Params.default : Params := { vmax := 64, intW := 64, lineMax := 64, wordW := 18 }

/-- `ceil(log2(n + 1))`: the bits an unsigned port needs for the values 0 to `n`; none when `n` is 0. -/
def bitsFor (n : Nat) : Nat := if n = 0 then 0 else Nat.log2 n + 1

/-- Bits of the `w_a` and `w_b` ports, `ceil(log2(VMAX + 1))` (R32): 7 when VMAX is 64. -/
def Params.widthBits (p : Params) : Nat := bitsFor p.vmax

/-- Bits of the `line_len` port, `ceil(log2(LINE_MAX + 1))` (R32): 7 when LINE_MAX is 64. DESIGN CHOICE (log 19): the spec
gives LINE_MAX no lower bound and the model accepts 0, where the formula leaves the port no bits. -/
def Params.lineLenBits (p : Params) : Nat := bitsFor p.lineMax

/-- Bits of the `idx` port: `ceil(log2(max(8, WORD_W)))`, widened to 7 where smaller (R32). DESIGN CHOICE (log 20): R32 says
"at least" so many bits, which leaves a wider port open for parameters other than the defaults; the model takes exactly
so many. -/
def Params.idxBits (p : Params) : Nat := max 7 (bitsFor (max 8 p.wordW - 1))

/-- REGISTRY: the two partial functions FMT and OPC of R25 and the auxiliary FLAG_TABLE of R26, each as its list of
entries; a key with no entry is absent, and the first entry of a key counts (DESIGN CHOICE, log 16). -/
structure Registry where
  fmt : List (Key × Format)
  opc : List (Key × Byte)
  flags : List (Int × Byte)
  deriving DecidableEq, Repr, Inhabited

/-- A placement `(hi, c)` of R83: the word element that receives the field's least-significant bit, and how many
low-order bits of the field are placed. -/
structure Placement where
  hi : Nat
  c : Nat
  deriving DecidableEq, Repr

/-- Placements of the fields the LS routine is passed (R82). -/
structure LsLayout where
  opcode : Placement
  generalRegister : Placement
  indexRegister : Placement
  indirection : Placement
  address : Placement
  deriving DecidableEq, Repr

/-- Placements of the fields the ARITH2 routine is passed (R82). -/
structure Arith2Layout where
  opcode : Placement
  registerX : Placement
  registerY : Placement
  deriving DecidableEq, Repr

/-- Placements of the fields the SHIFT routine is passed (R82). -/
structure ShiftLayout where
  opcode : Placement
  generalRegister : Placement
  count : Placement
  lr : Placement
  al : Placement
  deriving DecidableEq, Repr

/-- Placements of the fields the IO routine is passed (R82). -/
structure IoLayout where
  opcode : Placement
  generalRegister : Placement
  devid : Placement
  deriving DecidableEq, Repr

/-- LAYOUT of R83. -/
structure Layout where
  ls : LsLayout
  arith2 : Arith2Layout
  shift : ShiftLayout
  io : IoLayout
  deriving DecidableEq, Repr

/-- WW of R146: either the reference Word Writer built into the block, over a LAYOUT (R147), or any other one. -/
inductive WordWriter where
  | reference (layout : Layout)
  | external
  deriving DecidableEq, Repr

/-- The block's configuration: constant while the block runs (R24, R25, R51). DESIGN CHOICE (log 1): it stands in the machine's state
as plain data that no step writes, so that every claim holds for every configuration. -/
structure Config where
  params : Params
  /-- LATENCY: cycles from request to response (R195). -/
  latency : Nat
  registry : Registry
  wordWriter : WordWriter
  deriving DecidableEq, Repr

/-- The OPEN Word Writer of R146, element by element: element `i` of the word it returns for a starting word, an
opcode and one call. Nothing is assumed of it (log 3). -/
opaque Config.externalWordWriter : Word → Byte → WriterCall → Nat → Bool

/-- The OPEN contents of the registry (R25, R26; 91_not_in_source.md N3): nothing is assumed of them (log 2). -/
opaque Config.openRegistry : Registry

/-- The configuration with every parameter at the value R7 gives it, and the OPEN ones left open; LATENCY at its
default 0. -/
def Config.default : Config :=
  { params := Params.default, latency := 0, registry := Config.openRegistry, wordWriter := .external }

end Sys2Proof
end

