-- ==== Sys2Proof/Syntax.lean ====
section
/-! DEFINITION. The instructions, one constructor per row of spec/opcode_table.json, and the request ports that
carry one (10_state.md R32, 30_encoding.md R65, R67, R72). -/

namespace Sys2Proof

/-- One operation with its operands. The converter operations carry the ports R32 says they read. A PACK row
is selected inside the request by the registry (R67): it carries the opcode byte `OPC(key)` that the same lookup gave, the
valid text `line[0 .. L)` (R14; bytes at and above `L` are not read, R131) and the starting word `word_a`. -/
inductive Instr where
  /-- TO_UNSIGNED (R101). -/
  | toUnsigned (bits : BitVector) (width : Nat)
  /-- TO_SIGNED (R102). -/
  | toSigned (bits : BitVector) (width : Nat)
  /-- FROM_INTEGER (R104). -/
  | fromInteger (value : Int) (width : Nat)
  /-- RESIZE (R106). -/
  | resize (source : BitVector) (sourceWidth destinationWidth : Nat)
  /-- TEST_BIT (R107). -/
  | testBit (byteValue : Byte) (bitIndex : Nat)
  /-- COPY_BITS (R108). -/
  | copyBits (sourceByte : Byte) (targetWord : Word) (bitCount highBitIndexInTarget : Nat)
  /-- PACK, format ONE (R137). -/
  | packOne (opcode : Byte) (text : List Byte) (word : Word)
  /-- PACK, format TWO (R138). -/
  | packTwo (opcode : Byte) (text : List Byte) (word : Word)
  /-- PACK, format THREE (R139). -/
  | packThree (opcode : Byte) (text : List Byte) (word : Word)
  /-- PACK, format FOUR (R140). -/
  | packFour (opcode : Byte) (text : List Byte) (word : Word)
  /-- PACK, format FIVE (R141). -/
  | packFive (opcode : Byte) (text : List Byte) (word : Word)
  /-- PACK, format SIX (R142). -/
  | packSix (opcode : Byte) (text : List Byte) (word : Word)
  /-- PACK, format SEVEN (R143). -/
  | packSeven (opcode : Byte) (text : List Byte) (word : Word)
  /-- PACK, format EIGHT (R144). -/
  | packEight (opcode : Byte) (text : List Byte) (word : Word)
  /-- RESERVED, `op = 0x7` (R66): the table's row with match 0x38. -/
  | reservedSeven
  /-- RESERVED, `op = 0x8` to `0xF` (R66): the table's row with match 0x40; `low` is `op[2:0]`. -/
  | reservedHigh (low : BitVec 3)
  deriving DecidableEq, Repr

/-- The request input ports of R32, less the handshake. -/
structure Request where
  op : BitVec 4
  bvA : BitVector
  wA : Nat
  wB : Nat
  intA : Int
  byteA : Byte
  idx : Nat
  cnt : BitVec 4
  wordA : Word
  line : List Byte
  lineLen : Nat
  deriving DecidableEq, Repr

/-- Everything the environment drives in one clock cycle (R32): reset, the request strobe and the request ports. -/
structure CycleInput where
  rstN : Bool
  reqValid : Bool
  req : Request
  deriving DecidableEq, Repr

/-- The request whose ports all carry 0. -/
def Request.zero (p : Params) : Request :=
  { op := 0, bvA := tabulate p.vmax fun _ => false, wA := 0, wB := 0, intA := 0, byteA := 0, idx := 0, cnt := 0,
    wordA := tabulate p.wordW fun _ => false, line := List.replicate p.lineMax 0, lineLen := 0 }

end Sys2Proof
end

