-- ==== Sys2Proof/WellFormed.lean ====
section
/-! DEFINITION. When a value can stand on its port (10_state.md R29, R32; 30_encoding.md R72): the checks a request and an
instruction meet by the widths of the ports alone. A value out of the RANGE an operation accepts is well formed and
fails inside the operation (R100, R107, R108, R131). -/

namespace Sys2Proof

/-- `v` is an `INT_W`-bit two's-complement value (R29). -/
def Params.intFits (p : Params) (v : Int) : Bool :=
  decide (-(2 ^ (p.intW - 1) : Int) ≤ v ∧ v < (2 ^ (p.intW - 1) : Int))

/-- `bv` has the `VMAX` elements of a bit-vector port. -/
def Params.vectorFits (p : Params) (bv : BitVector) : Bool := decide (bv.length = p.vmax)

/-- `wd` has the `WORD_W` elements of a word port. -/
def Params.wordFits (p : Params) (wd : Word) : Bool := decide (wd.length = p.wordW)

/-- `w` fits the `w_a` and `w_b` ports. -/
def Params.widthFits (p : Params) (w : Nat) : Bool := decide (w < 2 ^ p.widthBits)

/-- `k` fits the `idx` port. -/
def Params.idxFits (p : Params) (k : Nat) : Bool := decide (k < 2 ^ p.idxBits)

/-- `c` fits the 4-bit `cnt` port. -/
def Params.cntFits (_ : Params) (c : Nat) : Bool := decide (c < 16)

/-- `text` fits the line port. -/
def Params.textFits (p : Params) (text : List Byte) : Bool := decide (text.length ≤ p.lineMax)

/-- The operands of an instruction fit the ports that carry them. -/
def Instr.wf (p : Params) : Instr → Bool
  | .toUnsigned bits width => p.vectorFits bits && p.widthFits width
  | .toSigned bits width => p.vectorFits bits && p.widthFits width
  | .fromInteger value width => p.intFits value && p.widthFits width
  | .resize source sw dw => p.vectorFits source && p.widthFits sw && p.widthFits dw
  | .testBit _ k => p.idxFits k
  | .copyBits _ word c h => p.wordFits word && p.cntFits c && p.idxFits h
  | .packOne _ text word => p.textFits text && p.wordFits word
  | .packTwo _ text word => p.textFits text && p.wordFits word
  | .packThree _ text word => p.textFits text && p.wordFits word
  | .packFour _ text word => p.textFits text && p.wordFits word
  | .packFive _ text word => p.textFits text && p.wordFits word
  | .packSix _ text word => p.textFits text && p.wordFits word
  | .packSeven _ text word => p.textFits text && p.wordFits word
  | .packEight _ text word => p.textFits text && p.wordFits word
  | .reservedSeven => true
  | .reservedHigh _ => true

/-- Every port of a request carries a value of its width (R32). -/
def Request.wf (p : Params) (r : Request) : Bool :=
  p.vectorFits r.bvA && p.widthFits r.wA && p.widthFits r.wB && p.intFits r.intA && p.idxFits r.idx &&
    p.wordFits r.wordA && decide (r.line.length = p.lineMax) && decide (r.lineLen < 2 ^ p.lineLenBits)

end Sys2Proof
end

