-- ==== Sys2Proof/Decode.lean ====
section
/-! DEFINITION. Decoding a request to the instruction it selects, and the encoder (30_encoding.md R65 to R70, R75, R87;
41_packer.md R130 to R134). Decoding is total: a request that selects no row of the opcode table (a PACK request whose
line is too long, too short for its key, or whose key the registry lacks) is rejected by the name of the error it
reports. -/

namespace Sys2Proof

/-- `'I'` = 0x49 (R14; this and the four below PRESUMED, log 11). -/
def charI : Byte := 0x49#8

/-- `'N'` = 0x4E (R14). -/
def charN : Byte := 0x4E#8

/-- `','` = 0x2C (R14). -/
def charComma : Byte := 0x2C#8

/-- `'0'` = 0x30 (R14). -/
def charZero : Byte := 0x30#8

/-- `'9'` = 0x39 (R14). -/
def charNine : Byte := 0x39#8

/-- The 3-bit format code of R68. -/
def Format.code : Format → BitVec 3
  | .one => 0
  | .two => 1
  | .three => 2
  | .four => 3
  | .five => 4
  | .six => 5
  | .seven => 6
  | .eight => 7

/-- The format of a code: all eight values are used (R68). -/
def Format.ofCode (b : BitVec 3) : Format :=
  if b = 0 then .one
  else if b = 1 then .two
  else if b = 2 then .three
  else if b = 3 then .four
  else if b = 4 then .five
  else if b = 5 then .six
  else if b = 6 then .seven
  else .eight

/-- KeyLength of R132: 2 when the line begins with "IN", else 3. `text` is `line[0 .. L)`. -/
def keyLength (text : List Byte) : Nat :=
  if 2 ≤ text.length ∧ text.getD 0 0 = charI ∧ text.getD 1 0 = charN then 2 else 3

/-- The key, the first `klen` characters; none when the line is shorter (R132, R133). -/
def keyOf (text : List Byte) : Option Key :=
  if text.length < keyLength text then none
  else if keyLength text = 2 then some (.two (text.getD 0 0) (text.getD 1 0))
  else some (.three (text.getD 0 0) (text.getD 1 0) (text.getD 2 0))

/-- FMT of R25: exact match of the key (R54, R134). -/
def Registry.lookupFormat (g : Registry) (k : Key) : Option Format := g.fmt.lookup k

/-- OPC of R25. -/
def Registry.lookupOpcode (g : Registry) (k : Key) : Option Byte := g.opc.lookup k

/-- lookupFlag of R26; no operation reads it. -/
def Registry.lookupFlag (g : Registry) (n : Int) : Option Byte := g.flags.lookup n

/-- Lookup of R134: either answer being absent fails the request. -/
def Registry.lookup (g : Registry) (k : Key) : Except Err (Format × Byte) :=
  match g.lookupFormat k, g.lookupOpcode k with
  | some f, some o => .ok (f, o)
  | _, _ => .error .unknownOpcode

/-- The valid text of a request, `line[0 .. L)` (R14). -/
def Request.text (r : Request) : List Byte := r.line.take r.lineLen

/-- The PACK instruction of a format. -/
def packInstr (f : Format) (opcode : Byte) (text : List Byte) (word : Word) : Instr :=
  match f with
  | .one => .packOne opcode text word
  | .two => .packTwo opcode text word
  | .three => .packThree opcode text word
  | .four => .packFour opcode text word
  | .five => .packFive opcode text word
  | .six => .packSix opcode text word
  | .seven => .packSeven opcode text word
  | .eight => .packEight opcode text word

/-- The opcode table (R67): the row a 7-bit selector `sel = op * 8 + fmt` stands in, with the operands the
request's ports carry. `opcode` is the byte a PACK row's lookup gave. Every selector stands in exactly one row. -/
def decodeSelector (sel : BitVec 7) (opcode : Byte) (r : Request) : Instr :=
  let op : BitVec 4 := sel.extractLsb' 3 4
  let fmt : BitVec 3 := sel.extractLsb' 0 3
  if op = 0x0 then .toUnsigned r.bvA r.wA
  else if op = 0x1 then .toSigned r.bvA r.wA
  else if op = 0x2 then .fromInteger r.intA r.wA
  else if op = 0x3 then .resize r.bvA r.wA r.wB
  else if op = 0x4 then .testBit r.byteA r.idx
  else if op = 0x5 then .copyBits r.byteA r.wordA r.cnt.toNat r.idx
  else if op = 0x6 then packInstr (Format.ofCode fmt) opcode r.text r.wordA
  else if op = 0x7 then .reservedSeven
  else .reservedHigh (op.extractLsb' 0 3)

/-- `op` 0x6 selects PACK (R65). -/
def opPack : BitVec 4 := 0x6

/-- Steps 1 and 2 of a PACK request (R130 to R134): the length check, the key, the lookup. -/
def selectPack (c : Config) (r : Request) : Except Err (Format × Byte) :=
  if c.params.lineMax < r.lineLen then .error .invalidArgument
  else
    match keyOf r.text with
    | none => .error .unknownOpcode
    | some k => c.registry.lookup k

/-- The instruction a request selects, or the error with which it fails before a row is selected. For PACK the format
code is produced inside the request (R67); for every other `op` it is not used and taken as 0. DESIGN CHOICE (log 18). -/
def decodeRequest (c : Config) (r : Request) : Except Err Instr :=
  if r.op = opPack then
    match selectPack c r with
    | .ok (f, o) => .ok (decodeSelector (r.op ++ f.code) o r)
    | .error e => .error e
  else .ok (decodeSelector (r.op ++ (0 : BitVec 3)) 0 r)

/-- The ports of a request in which a selector stands with operand ports of zeros. A PACK row is selected only through a
key, so its line is the shortest that holds a 3-character key: three bytes of 0 (log 9). -/
def selectorRequest (p : Params) (sel : BitVec 7) : Request :=
  let op : BitVec 4 := sel.extractLsb' 3 4
  { Request.zero p with op := op, lineLen := if op = opPack then 3 else 0 }

/-- The instruction of a selector of spec/opcode_table.json, its operand ports at 0. A selector has 7 bits (R67). -/
def decodeTableWord (_nbits w : Nat) : Option Instr :=
  if w < 128 then some (decodeSelector (BitVec.ofNat 7 w) 0 (selectorRequest Params.default (BitVec.ofNat 7 w)))
  else none

/-! ## The encoder, written from the table of R65 and R67 -/

/-- The selector of an instruction (R67), `fmt` as 0 where it is not used. -/
def Instr.selector : Instr → BitVec 7
  | .toUnsigned _ _ => 0x00
  | .toSigned _ _ => 0x08
  | .fromInteger _ _ => 0x10
  | .resize _ _ _ => 0x18
  | .testBit _ _ => 0x20
  | .copyBits _ _ _ _ => 0x28
  | .packOne _ _ _ => 0x30
  | .packTwo _ _ _ => 0x31
  | .packThree _ _ _ => 0x32
  | .packFour _ _ _ => 0x33
  | .packFive _ _ _ => 0x34
  | .packSix _ _ _ => 0x35
  | .packSeven _ _ _ => 0x36
  | .packEight _ _ _ => 0x37
  | .reservedSeven => 0x38
  | .reservedHigh low => (0b1#1 ++ low) ++ (0 : BitVec 3)

/-- The request of a PACK instruction: the text in the first slots of the line port, the rest 0. -/
def encodePack (p : Params) (text : List Byte) (word : Word) : Request :=
  { Request.zero p with
    op := 0x6, line := text ++ List.replicate (p.lineMax - text.length) 0, lineLen := text.length, wordA := word }

/-- The request ports of an instruction; a port the operation does not read carries 0 (R32, R65, R72). -/
def encode (p : Params) : Instr → Request
  | .toUnsigned bits width => { Request.zero p with op := 0x0, bvA := bits, wA := width }
  | .toSigned bits width => { Request.zero p with op := 0x1, bvA := bits, wA := width }
  | .fromInteger value width => { Request.zero p with op := 0x2, intA := value, wA := width }
  | .resize source sw dw => { Request.zero p with op := 0x3, bvA := source, wA := sw, wB := dw }
  | .testBit b k => { Request.zero p with op := 0x4, byteA := b, idx := k }
  | .copyBits b word c h =>
    { Request.zero p with op := 0x5, byteA := b, wordA := word, cnt := BitVec.ofNat 4 c, idx := h }
  | .packOne _ text word => encodePack p text word
  | .packTwo _ text word => encodePack p text word
  | .packThree _ text word => encodePack p text word
  | .packFour _ text word => encodePack p text word
  | .packFive _ text word => encodePack p text word
  | .packSix _ text word => encodePack p text word
  | .packSeven _ text word => encodePack p text word
  | .packEight _ text word => encodePack p text word
  | .reservedSeven => { Request.zero p with op := 0x7 }
  | .reservedHigh low => { Request.zero p with op := 0b1#1 ++ low }

/-- The registry gives the text's key this format and this opcode (R134). -/
def Registry.selects (g : Registry) (f : Format) (opcode : Byte) (text : List Byte) : Bool :=
  match keyOf text with
  | none => false
  | some k => decide (g.lookupFormat k = some f ∧ g.lookupOpcode k = some opcode)

/-- The registry selects the instruction's row: for a PACK row, its format and opcode are those of the text's key
(R67, R134); any other row is selected by `op` alone. -/
def Instr.selected (g : Registry) : Instr → Bool
  | .toUnsigned _ _ => true
  | .toSigned _ _ => true
  | .fromInteger _ _ => true
  | .resize _ _ _ => true
  | .testBit _ _ => true
  | .copyBits _ _ _ _ => true
  | .packOne opcode text _ => g.selects .one opcode text
  | .packTwo opcode text _ => g.selects .two opcode text
  | .packThree opcode text _ => g.selects .three opcode text
  | .packFour opcode text _ => g.selects .four opcode text
  | .packFive opcode text _ => g.selects .five opcode text
  | .packSix opcode text _ => g.selects .six opcode text
  | .packSeven opcode text _ => g.selects .seven opcode text
  | .packEight opcode text _ => g.selects .eight opcode text
  | .reservedSeven => true
  | .reservedHigh _ => true

/-- A row's `match` in spec/opcode_table.json. -/
def Instr.rowMatch : Instr → BitVec 7
  | .toUnsigned _ _ => 0x00
  | .toSigned _ _ => 0x08
  | .fromInteger _ _ => 0x10
  | .resize _ _ _ => 0x18
  | .testBit _ _ => 0x20
  | .copyBits _ _ _ _ => 0x28
  | .packOne _ _ _ => 0x30
  | .packTwo _ _ _ => 0x31
  | .packThree _ _ _ => 0x32
  | .packFour _ _ _ => 0x33
  | .packFive _ _ _ => 0x34
  | .packSix _ _ _ => 0x35
  | .packSeven _ _ _ => 0x36
  | .packEight _ _ _ => 0x37
  | .reservedSeven => 0x38
  | .reservedHigh _ => 0x40

/-- A row's `mask` in spec/opcode_table.json. -/
def Instr.rowMask : Instr → BitVec 7
  | .toUnsigned _ _ => 0x78
  | .toSigned _ _ => 0x78
  | .fromInteger _ _ => 0x78
  | .resize _ _ _ => 0x78
  | .testBit _ _ => 0x78
  | .copyBits _ _ _ _ => 0x78
  | .packOne _ _ _ => 0x7F
  | .packTwo _ _ _ => 0x7F
  | .packThree _ _ _ => 0x7F
  | .packFour _ _ _ => 0x7F
  | .packFive _ _ _ => 0x7F
  | .packSix _ _ _ => 0x7F
  | .packSeven _ _ _ => 0x7F
  | .packEight _ _ _ => 0x7F
  | .reservedSeven => 0x78
  | .reservedHigh _ => 0x40

end Sys2Proof
end

