-- ==== Sys2Proof/Machine/State.lean ====
section
/-! DEFINITION. The machine's state (10_state.md R20 to R37): the in-flight pipeline and the response on the output ports,
beside the configuration no step writes and the input cycles the environment has lined up; what a response holds (R33); the
reasons a step can stop; the machine after reset. -/

namespace Sys2Proof.Machine

/-- What a successful PACK delivers (R33, R148). -/
structure PackResult where
  /-- `fmt_y`, before it is coded (R68). -/
  format : Format
  /-- `routine_y`, before it is coded (R69). -/
  routine : Routine
  /-- `opcode_y`. -/
  opcode : Byte
  /-- `gr_y` to `devid_y`. -/
  fields : DecodedFields
  /-- `word_y`. -/
  word : Word
  deriving DecidableEq, Repr

/-- The outputs a successful operation defines (R33). -/
inductive Result where
  /-- `int_y`: TO_UNSIGNED, TO_SIGNED. -/
  | int (value : Int)
  /-- `bv_y`: FROM_INTEGER, RESIZE. -/
  | vector (bits : BitVector)
  /-- `bit_y`: TEST_BIT. -/
  | bit (value : Bool)
  /-- `word_y`: COPY_BITS. -/
  | word (value : Word)
  /-- The outputs of PACK. -/
  | pack (result : PackResult)
  deriving DecidableEq, Repr

/-- A response: success with the outputs the operation defines, or failure with one error (R33, R170). -/
inductive Response where
  | success (r : Result)
  | failure (e : Err)
  deriving DecidableEq, Repr

/-- Why the machine would stop with a fault: NO reason at all (DEDUCED, log 13). The block has no trap, no vector and no stuck state (R170, R178,
R179): each of its five errors is a response (`Response.failure`) after which it goes on (R177). -/
inductive Fault where
  deriving DecidableEq, Repr

/-- Why a step is refused. -/
inductive Refusal where
  /-- Raised by an arm of exec whose instruction has no meaning yet (there is none). Safe. -/
  | notModelled (mnemonic : String)
  /-- Raised by `step` when the configuration breaks a constraint of R83 (93_implementation_defined.md S7: the
  configuration is rejected) or of the width parameters (log 6). Safe: nothing runs under such a configuration. -/
  | illegalConfiguration
  deriving DecidableEq, Repr

/-- The machine's state. The block itself keeps only `pipeline` (R20, R34) and drives `rsp`; it has no registers, no program
counter, no flags, no control registers and no memory (R21 to R24, R36, R50). -/
structure State where
  /-- The configuration: a parameter of the block that no step writes (R24, R25; log 1). -/
  config : Config
  /-- The MODEL's own field: the input cycles the environment is going to present, the next one first (log 4). -/
  inputs : List CycleInput
  /-- The LATENCY pipeline stages, the oldest first; `none` is a stage whose valid bit is clear (R34, R35; log 5). -/
  pipeline : List (Option Response)
  /-- The response on the output ports in the cycle just run; `none` is `rsp_valid = 0` (R33, R195; log 14). -/
  rsp : Option Response
  deriving DecidableEq, Repr

/-- The machine after reset: no pipeline stage is valid and `rsp_valid = 0` (R35), under the default configuration
(DESIGN CHOICE, log 17). -/
def State.reset : State :=
  { config := Config.default
    inputs := []
    pipeline := List.replicate Config.default.latency none
    rsp := none }

/-- The `rsp_valid` port (R33). -/
def State.rspValid (s : State) : Bool := s.rsp.isSome

end Sys2Proof.Machine
end

