-- ==== Sys2Proof/Machine/Ops.lean ====
section
/-! DEFINITION. The shared operations: the exact functions of 00_scope.md R12 over element arrays, field placement
(40_converter.md R108), the constraints on a configuration (30_encoding.md R83), the clock cycle of the pipeline
(70_reset_and_hazards.md R190, R191, R195), and reporting an error (60_exceptions.md R170). -/

namespace Sys2Proof.Machine

/-! ## Vectors and integers (R12) -/

/-- `U(bv, w)`: the sum over `i` in `[0, w)` of `bv.e[i] * 2^(w-1-i)`. -/
def unsignedValue (bv : List Bool) (w : Nat) : Nat :=
  ((List.range w).map fun i => if elemAt bv i then 2 ^ (w - 1 - i) else 0).sum

/-- `BV(n, w)` on a port of `vmax` elements: element `i < w` is bit `w-1-i` of `n`, the others 0. -/
def vectorOf (vmax : Nat) (n w : Nat) : BitVector :=
  tabulate vmax fun i => decide (i < w) && n.testBit (w - 1 - i)

/-- `flip(bv, w)`: the elements below `w` complemented, the others 0. -/
def flipVector (vmax : Nat) (bv : BitVector) (w : Nat) : BitVector :=
  tabulate vmax fun i => decide (i < w) && !elemAt bv i

/-- RESIZE's vector (R106): right-aligned with zeros above when it grows, the low-order elements when it shrinks. -/
def resizeVector (vmax : Nat) (bv : BitVector) (sw dw : Nat) : BitVector :=
  if sw ≤ dw then tabulate vmax fun i => decide (dw - sw ≤ i ∧ i < dw) && elemAt bv (i - (dw - sw))
  else tabulate vmax fun i => decide (i < dw) && elemAt bv (sw - dw + i)

/-- CheckWidth of R100. -/
def widthOk (c : Config) (w : Nat) : Bool := decide (1 ≤ w ∧ w ≤ c.params.vmax)

/-! ## Placing the low bits of a byte in a word (R108, R84) -/

/-- The word with bit `i` of `b` written to element `h - i` for `i` in `[0, c)`; every other element unchanged. -/
def placeBits (wordW : Nat) (b : Byte) (wd : Word) (c h : Nat) : Word :=
  tabulate wordW fun k => if k ≤ h ∧ h < k + c then b.getLsbD (h - k) else elemAt wd k

/-! ## Constraints on the configuration (R83) -/

/-- `0 <= c <= 8`, and `c - 1 <= hi <= WORD_W - 1` when `c > 0` (R83). -/
def placementInWord (wordW : Nat) (p : Placement) : Bool :=
  decide (p.c ≤ 8 ∧ (0 < p.c → p.c ≤ p.hi + 1 ∧ p.hi < wordW))

/-- The element ranges `[hi - c + 1, hi]` of two placements share no element (R83); a range with `c = 0` is empty. -/
def placementsApart (p q : Placement) : Bool :=
  decide (p.c = 0 ∨ q.c = 0 ∨ p.hi + 1 ≤ q.hi + 1 - q.c ∨ q.hi + 1 ≤ p.hi + 1 - p.c)

/-- The placements of one routine, each in the word and any two apart (R83). -/
def placementsLegal (wordW : Nat) : List Placement → Bool
  | [] => true
  | p :: ps => placementInWord wordW p && ps.all (placementsApart p) && placementsLegal wordW ps

/-- The LS placements in the order of R82. -/
def lsPlacements (l : LsLayout) : List Placement :=
  [l.opcode, l.generalRegister, l.indexRegister, l.indirection, l.address]

/-- The ARITH2 placements in the order of R82. -/
def arith2Placements (l : Arith2Layout) : List Placement := [l.opcode, l.registerX, l.registerY]

/-- The SHIFT placements in the order of R82. -/
def shiftPlacements (l : ShiftLayout) : List Placement := [l.opcode, l.generalRegister, l.count, l.lr, l.al]

/-- The IO placements in the order of R82. -/
def ioPlacements (l : IoLayout) : List Placement := [l.opcode, l.generalRegister, l.devid]

/-- LAYOUT meets the constraints of R83. -/
def layoutLegal (wordW : Nat) (l : Layout) : Bool :=
  placementsLegal wordW (lsPlacements l.ls) && placementsLegal wordW (arith2Placements l.arith2) &&
    placementsLegal wordW (shiftPlacements l.shift) && placementsLegal wordW (ioPlacements l.io)

/-- The width parameters describe a block: VMAX and WORD_W are not 0, and every width's signed value fits the integer ports
(R102: "inside `int_y` for every `w <= INT_W`"), so INT_W is not 0 either. DEDUCED (log 6). LINE_MAX is not checked: the
spec gives it no lower bound and the model accepts 0, a DESIGN CHOICE (log 19). -/
def paramsLegal (p : Params) : Bool := decide (1 ≤ p.vmax ∧ p.vmax ≤ p.intW ∧ 1 ≤ p.wordW)

/-- The configurations under which the block operates. -/
def configLegal (c : Config) : Bool :=
  paramsLegal c.params &&
    match c.wordWriter with
    | .reference layout => layoutLegal c.params.wordW layout
    | .external => true

/-! ## One clock cycle -/

/-- What the environment does in the next cycle (R32, R190, R191). -/
inductive Fetched where
  /-- No request is presented. -/
  | idle
  /-- Reset is held low in a block that has a reset. -/
  | held
  /-- A request is accepted. -/
  | request (r : Request)
  deriving DecidableEq, Repr

/-- The next cycle's input. `rst_n` is read only when LATENCY > 0 (R32, R190, R191). After the cycles lined up, the
environment presents nothing (log 4). -/
def fetchCycle (s : State) : Fetched :=
  match s.inputs with
  | [] => .idle
  | x :: _ =>
    if 0 < s.config.latency ∧ x.rstN = false then .held
    else if x.reqValid then .request x.req
    else .idle

/-- The cycle's input is consumed. -/
def State.consume (s : State) : State := { s with inputs := s.inputs.tail }

/-- One cycle without reset: what enters now leaves after LATENCY further cycles, in order (R195); with no stage it is
presented in the same cycle (R191). -/
def State.clock (s : State) (entering : Option Response) : State :=
  { s with
    pipeline := (s.pipeline ++ [entering]).tail
    rsp := (s.pipeline ++ [entering]).headD none }

/-- A cycle in which reset is held: every stage's valid bit is cleared, nothing is accepted or presented (R35, R190). -/
def State.hold (s : State) : State := { s with pipeline := s.pipeline.map fun _ => none, rsp := none }

/-- A cycle in which no request is accepted. -/
def State.idle (s : State) : State := s.clock none

/-- A cycle in which a request is accepted and its response computed (R58, R195). -/
def State.respond (s : State) (r : Response) : State := s.clock (some r)

/-- `raise E` (R13, R170): the request ends with `Failure(E)`; nothing is saved, no mode changes and control goes
nowhere. This is all that taking an error is on this block; nothing returns from it (R179). -/
def State.raise (s : State) (e : Err) : State := s.respond (.failure e)

end Sys2Proof.Machine
end

