-- ==== Sys2Proof/Machine/Converter.lean ====
section
/-! DEFINITION. The six operations of the Bit-Width Converter (40_converter.md R100 to R108): for each the response it
computes, and its meaning. -/

namespace Sys2Proof.Machine

/-- TO_UNSIGNED (R101): the exact sum, or WIDTH_OVERFLOW when it does not fit `int_y`. -/
def toUnsignedResponse (c : Config) (bits : BitVector) (width : Nat) : Response :=
  if widthOk c width = false then .failure .invalidArgument
  else if 2 ^ (c.params.intW - 1) - 1 < unsignedValue bits width then .failure .widthOverflow
  else .success (.int (unsignedValue bits width))

/-- The value of TO_SIGNED, by the steps of R102: a clear sign element reads as unsigned; a set one complements the vector,
reads that as unsigned, adds one and negates. -/
def signedValue (vmax : Nat) (bits : BitVector) (width : Nat) : Int :=
  if elemAt bits 0 = false then unsignedValue bits width
  else -((unsignedValue (flipVector vmax (resizeVector vmax bits width width) width) width : Int) + 1)

/-- TO_SIGNED (R102): never WIDTH_OVERFLOW. -/
def toSignedResponse (c : Config) (bits : BitVector) (width : Nat) : Response :=
  if widthOk c width = false then .failure .invalidArgument
  else .success (.int (signedValue c.params.vmax bits width))

/-- The vector of FROM_INTEGER, by the steps of R104: a value at or above 0 is reduced modulo `2^w`; a negative one
encodes its magnitude less one and complements the result. The magnitude is unbounded (93_implementation_defined.md U7). -/
def integerVector (vmax : Nat) (value : Int) (width : Nat) : BitVector :=
  if 0 ≤ value then vectorOf vmax (value.toNat % 2 ^ width) width
  else flipVector vmax (vectorOf vmax (((-value).toNat - 1) % 2 ^ width) width) width

/-- FROM_INTEGER (R104): a value that does not fit is truncated, never an error (90_conflicts.md C5). -/
def fromIntegerResponse (c : Config) (value : Int) (width : Nat) : Response :=
  if widthOk c width = false then .failure .invalidArgument
  else .success (.vector (integerVector c.params.vmax value width))

/-- RESIZE (R106). -/
def resizeResponse (c : Config) (source : BitVector) (sourceWidth destinationWidth : Nat) : Response :=
  if widthOk c sourceWidth = false then .failure .invalidArgument
  else if widthOk c destinationWidth = false then .failure .invalidArgument
  else .success (.vector (resizeVector c.params.vmax source sourceWidth destinationWidth))

/-- TEST_BIT (R107). -/
def testBitResponse (byteValue : Byte) (bitIndex : Nat) : Response :=
  if 7 < bitIndex then .failure .invalidArgument
  else .success (.bit (byteValue.getLsbD bitIndex))

/-- COPY_BITS (R108): with a count of 0 the position is not checked. -/
def copyBitsResponse (c : Config) (sourceByte : Byte) (targetWord : Word) (bitCount highBit : Nat) : Response :=
  if 8 < bitCount then .failure .invalidArgument
  else if 0 < bitCount ∧ (c.params.wordW ≤ highBit ∨ highBit + 1 < bitCount) then .failure .invalidArgument
  else .success (.word (placeBits c.params.wordW sourceByte targetWord bitCount highBit))

/-- TO_UNSIGNED. -/
def execToUnsigned (bits : BitVector) (width : Nat) (s : State) : Host.Outcome State Fault Refusal :=
  .next (s.respond (toUnsignedResponse s.config bits width))

/-- TO_SIGNED. -/
def execToSigned (bits : BitVector) (width : Nat) (s : State) : Host.Outcome State Fault Refusal :=
  .next (s.respond (toSignedResponse s.config bits width))

/-- FROM_INTEGER. -/
def execFromInteger (value : Int) (width : Nat) (s : State) : Host.Outcome State Fault Refusal :=
  .next (s.respond (fromIntegerResponse s.config value width))

/-- RESIZE. -/
def execResize (source : BitVector) (sourceWidth destinationWidth : Nat) (s : State) :
    Host.Outcome State Fault Refusal :=
  .next (s.respond (resizeResponse s.config source sourceWidth destinationWidth))

/-- TEST_BIT. -/
def execTestBit (byteValue : Byte) (bitIndex : Nat) (s : State) : Host.Outcome State Fault Refusal :=
  .next (s.respond (testBitResponse byteValue bitIndex))

/-- COPY_BITS. -/
def execCopyBits (sourceByte : Byte) (targetWord : Word) (bitCount highBit : Nat) (s : State) :
    Host.Outcome State Fault Refusal :=
  .next (s.respond (copyBitsResponse s.config sourceByte targetWord bitCount highBit))

end Sys2Proof.Machine
end

