-- ==== Sys2Proof/Machine/Operands.lean ====
section
/-! DEFINITION. The field readers of a PACK line (30_encoding.md R76, R79 to R81; 41_packer.md R135, R136). -/

namespace Sys2Proof.Machine

/-- Split (R76, R135): the pieces between commas, in order, empty ones kept; at least one piece. -/
def splitCommas : List Byte → List (List Byte)
  | [] => [[]]
  | b :: bs =>
    if b = charComma then [] :: splitCommas bs
    else
      match splitCommas bs with
      | [] => [[b]]
      | t :: ts => (b :: t) :: ts

/-- The tokens of a line: the operand text starts one character after the key, and the character there is not examined
(R75, R135; UNVERIFIED, log 12). -/
def tokens (text : List Byte) : List (List Byte) := splitCommas (text.drop (keyLength text + 1))

/-- `'0' <= b <= '9'`. -/
def isDigit (b : Byte) : Bool := decide (charZero.toNat ≤ b.toNat ∧ b.toNat ≤ charNine.toNat)

/-- `b - '0'`. -/
def digitValue (b : Byte) : Nat := b.toNat - charZero.toNat

/-- The decimal number a string of digits spells, an unbounded integer (R79). -/
def decimalValue (text : List Byte) : Nat := text.foldl (fun v b => 10 * v + digitValue b) 0

/-- ParseDec (R79). -/
def parseDec (text : List Byte) : Except Err Byte :=
  if text = [] then .error .malformedOperand
  else if text.all isDigit = false then .error .malformedOperand
  else if 255 < decimalValue text then .error .malformedOperand
  else .ok (BitVec.ofNat 8 (decimalValue text))

/-- ParseFixed (R80): one digit at `pos`, then a comma or the end of the line. -/
def parseFixed (text : List Byte) (pos : Nat) : Except Err Byte :=
  match text[pos]? with
  | none => .error .malformedOperand
  | some b =>
    if isDigit b = false then .error .malformedOperand
    else
      match text[pos + 1]? with
      | none => .ok (BitVec.ofNat 8 (digitValue b))
      | some b' => if b' = charComma then .ok (BitVec.ofNat 8 (digitValue b)) else .error .malformedOperand

/-- ParseTok (R136): token `j`, required. -/
def parseTok (text : List Byte) (j : Nat) : Except Err Byte :=
  match (tokens text)[j]? with
  | none => .error .malformedOperand
  | some t => parseDec t

/-- OptTok (R81, R136): token `j`, 0 when the line has no such token. -/
def optTok (text : List Byte) (j : Nat) : Except Err Byte :=
  match (tokens text)[j]? with
  | none => .ok 0
  | some t => parseDec t

end Sys2Proof.Machine
end

