-- ==== Sys2Proof/Machine/Packer.lean ====
section
/-! DEFINITION. PACK after its row is selected (41_packer.md R130, R137 to R150): the fields of each format, the dispatch to
a Word Writer routine, the Word Writer, the response, and one meaning per format. -/

namespace Sys2Proof.Machine

/-! ## The fields of the eight formats -/

/-- Format ONE (R137). -/
def parseOne (text : List Byte) : Except Err DecodedFields := do
  let gr ← parseFixed text 4
  let ix ← parseTok text 1
  let addr ← parseTok text 2
  let ind ← optTok text 3
  .ok { DecodedFields.zero with generalRegister := gr, indexRegister := ix, address := addr, indirection := ind }

/-- Format TWO (R138). -/
def parseTwo (text : List Byte) : Except Err DecodedFields := do
  let ix ← parseFixed text 4
  let addr ← parseTok text 1
  let ind ← optTok text 2
  .ok { DecodedFields.zero with indexRegister := ix, address := addr, indirection := ind }

/-- Format THREE (R139). -/
def parseThree (text : List Byte) : Except Err DecodedFields := do
  let gr ← parseFixed text 4
  let addr ← parseTok text 1
  .ok { DecodedFields.zero with generalRegister := gr, address := addr }

/-- Format FOUR (R140): the whole rest of the line from position 4, whatever the key length. -/
def parseFour (text : List Byte) : Except Err DecodedFields := do
  let addr ← parseDec (text.drop 4)
  .ok { DecodedFields.zero with address := addr }

/-- Format FIVE (R141). -/
def parseFive (text : List Byte) : Except Err DecodedFields := do
  let rx ← parseFixed text 4
  .ok { DecodedFields.zero with registerX := rx }

/-- Format SIX (R142). -/
def parseSix (text : List Byte) : Except Err DecodedFields := do
  let rx ← parseFixed text 4
  let ry ← parseTok text 1
  .ok { DecodedFields.zero with registerX := rx, registerY := ry }

/-- Format SEVEN (R143): all three tokens are required. -/
def parseSeven (text : List Byte) : Except Err DecodedFields := do
  let gr ← parseFixed text 4
  let count ← parseTok text 1
  let lr ← parseTok text 2
  let al ← parseTok text 3
  .ok { DecodedFields.zero with generalRegister := gr, count := count, lr := lr, al := al }

/-- Format EIGHT (R144): the digit stands one character after the key. -/
def parseEight (text : List Byte) : Except Err DecodedFields := do
  let gr ← parseFixed text (keyLength text + 1)
  let devid ← parseTok text 1
  .ok { DecodedFields.zero with generalRegister := gr, devid := devid }

/-! ## Dispatch and the Word Writer -/

/-- ROUTINE (R70). -/
def routineOf : Format → Routine
  | .one => .ls
  | .two => .ls
  | .three => .ls
  | .four => .ls
  | .five => .arith2
  | .six => .arith2
  | .seven => .shift
  | .eight => .io

/-- Exactly the fields a routine is passed (R82, R145). -/
def writerCall (r : Routine) (f : DecodedFields) : WriterCall :=
  match r with
  | .ls => .ls f.generalRegister f.indexRegister f.indirection f.address
  | .arith2 => .arith2 f.registerX f.registerY
  | .shift => .shift f.generalRegister f.count f.lr f.al
  | .io => .io f.generalRegister f.devid

/-- A call's bytes, the opcode first, each with its placement, in the order of R82. -/
def placedFields (layout : Layout) (opcode : Byte) : WriterCall → List (Byte × Placement)
  | .ls gr ix ind addr => [opcode, gr, ix, ind, addr].zip (lsPlacements layout.ls)
  | .arith2 rx ry => [opcode, rx, ry].zip (arith2Placements layout.arith2)
  | .shift gr count lr al => [opcode, gr, count, lr, al].zip (shiftPlacements layout.shift)
  | .io gr devid => [opcode, gr, devid].zip (ioPlacements layout.io)

/-- The reference Word Writer (R147): the placement of COPY_BITS once per field. Under a layout that R83 allows no COPY_BITS
check can fail. -/
def writeFields (wordW : Nat) (word : Word) (fields : List (Byte × Placement)) : Word :=
  fields.foldl (fun wd bp => placeBits wordW bp.1 wd bp.2.c bp.2.hi) word

/-- WW (R146, R147). -/
def wordWrite (c : Config) (word : Word) (opcode : Byte) (call : WriterCall) : Word :=
  match c.wordWriter with
  | .reference layout => writeFields c.params.wordW word (placedFields layout opcode call)
  | .external => tabulate c.params.wordW (Config.externalWordWriter word opcode call)

/-- Steps 5 and 6 (R145, R148), or the failure of step 4 (R149): the Word Writer is not invoked on a failure. -/
def packResponse (c : Config) (f : Format) (opcode : Byte) (word : Word) (fields : Except Err DecodedFields) : Response :=
  match fields with
  | .error e => .failure e
  | .ok fs =>
    .success (.pack
      { format := f
        routine := routineOf f
        opcode := opcode
        fields := fs
        word := wordWrite c word opcode (writerCall (routineOf f) fs) })

/-! ## The meanings -/

/-- PACK, format ONE. -/
def execPackOne (opcode : Byte) (text : List Byte) (word : Word) (s : State) : Host.Outcome State Fault Refusal :=
  .next (s.respond (packResponse s.config .one opcode word (parseOne text)))

/-- PACK, format TWO. -/
def execPackTwo (opcode : Byte) (text : List Byte) (word : Word) (s : State) : Host.Outcome State Fault Refusal :=
  .next (s.respond (packResponse s.config .two opcode word (parseTwo text)))

/-- PACK, format THREE. -/
def execPackThree (opcode : Byte) (text : List Byte) (word : Word) (s : State) : Host.Outcome State Fault Refusal :=
  .next (s.respond (packResponse s.config .three opcode word (parseThree text)))

/-- PACK, format FOUR. -/
def execPackFour (opcode : Byte) (text : List Byte) (word : Word) (s : State) : Host.Outcome State Fault Refusal :=
  .next (s.respond (packResponse s.config .four opcode word (parseFour text)))

/-- PACK, format FIVE. -/
def execPackFive (opcode : Byte) (text : List Byte) (word : Word) (s : State) : Host.Outcome State Fault Refusal :=
  .next (s.respond (packResponse s.config .five opcode word (parseFive text)))

/-- PACK, format SIX. -/
def execPackSix (opcode : Byte) (text : List Byte) (word : Word) (s : State) : Host.Outcome State Fault Refusal :=
  .next (s.respond (packResponse s.config .six opcode word (parseSix text)))

/-- PACK, format SEVEN. -/
def execPackSeven (opcode : Byte) (text : List Byte) (word : Word) (s : State) : Host.Outcome State Fault Refusal :=
  .next (s.respond (packResponse s.config .seven opcode word (parseSeven text)))

/-- PACK, format EIGHT. -/
def execPackEight (opcode : Byte) (text : List Byte) (word : Word) (s : State) : Host.Outcome State Fault Refusal :=
  .next (s.respond (packResponse s.config .eight opcode word (parseEight text)))

end Sys2Proof.Machine
end

