-- ==== Sys2Proof/Machine/Reserved.lean ====
section
/-! DEFINITION. The reserved operation codes (30_encoding.md R66, R86; 60_exceptions.md R175): the request fails with
INVALID_OP and reads no other input. -/

namespace Sys2Proof.Machine

/-- `op = 0x7`. -/
def execReservedSeven (s : State) : Host.Outcome State Fault Refusal := .next (s.raise .invalidOp)

/-- `op = 0x8` to `0xF`. -/
def execReservedHigh (_low : BitVec 3) (s : State) : Host.Outcome State Fault Refusal := .next (s.raise .invalidOp)

end Sys2Proof.Machine
end

