-- ==== Sys2Proof/Machine/Dispatch.lean ====
section
/-! DEFINITION. exec: one arm per instruction, each one call of its meaning. It is the cycle in which the request is
accepted: the cycle's input is already consumed. -/

namespace Sys2Proof.Machine

/-- The meaning of an instruction. -/
def exec (i : Instr) (s : State) : Host.Outcome State Fault Refusal :=
  match i with
  | .toUnsigned bits width => Sys2Proof.Machine.execToUnsigned bits width s
  | .toSigned bits width => Sys2Proof.Machine.execToSigned bits width s
  | .fromInteger value width => Sys2Proof.Machine.execFromInteger value width s
  | .resize source sw dw => Sys2Proof.Machine.execResize source sw dw s
  | .testBit byteValue bitIndex => Sys2Proof.Machine.execTestBit byteValue bitIndex s
  | .copyBits b word c h => Sys2Proof.Machine.execCopyBits b word c h s
  | .packOne opcode text word => Sys2Proof.Machine.execPackOne opcode text word s
  | .packTwo opcode text word => Sys2Proof.Machine.execPackTwo opcode text word s
  | .packThree opcode text word => Sys2Proof.Machine.execPackThree opcode text word s
  | .packFour opcode text word => Sys2Proof.Machine.execPackFour opcode text word s
  | .packFive opcode text word => Sys2Proof.Machine.execPackFive opcode text word s
  | .packSix opcode text word => Sys2Proof.Machine.execPackSix opcode text word s
  | .packSeven opcode text word => Sys2Proof.Machine.execPackSeven opcode text word s
  | .packEight opcode text word => Sys2Proof.Machine.execPackEight opcode text word s
  | .reservedSeven => Sys2Proof.Machine.execReservedSeven s
  | .reservedHigh low => Sys2Proof.Machine.execReservedHigh low s

end Sys2Proof.Machine
end

