-- ==== Sys2Proof/Machine/Step.lean ====
section
/-! DEFINITION. One step: one clock cycle of the block (70_reset_and_hazards.md R190, R191, R195), or, when LATENCY is 0, the
evaluation of the inputs presented; and placing an instruction where the next step takes it. -/

namespace Sys2Proof.Machine

/-- One cycle. A configuration that R83 forbids is refused before anything operates; otherwise the cycle's input is
consumed and the block idles, is held in reset, answers a request that selects no row with its error, or runs the
instruction the request selects. -/
def step (s : State) : Host.Outcome State Fault Refusal :=
  if configLegal s.config = false then .refused .illegalConfiguration
  else
    match fetchCycle s with
    | .idle => .next s.consume.idle
    | .held => .next s.consume.hold
    | .request r =>
      match decodeRequest s.config r with
      | .error e => .next (s.consume.raise e)
      | .ok i => exec i s.consume

/-- The key of three bytes 0, which `selectorRequest` presents for a PACK row. -/
def selectorKey : Key := .three 0 0 0

/-- `s` with the request of a selector, operand ports at 0, as the next input cycle. A PACK row is selected by what the
registry gives the line's key (R67), so for such a row the registry gets the entry of that key: the row's format and
the opcode 0. -/
def State.withFetchWord (s : State) (_nbits w : Nat) : State :=
  let sel := BitVec.ofNat 7 w
  let r := selectorRequest s.config.params sel
  let g := s.config.registry
  { s with
    config :=
      if r.op = opPack then
        { s.config with
          registry :=
            { g with
              fmt := (selectorKey, Format.ofCode (sel.extractLsb' 0 3)) :: g.fmt
              opc := (selectorKey, 0) :: g.opc } }
      else s.config
    inputs := { rstN := true, reqValid := true, req := r } :: s.inputs }

end Sys2Proof.Machine
end

