-- ==== Sys2Proof/Machine/Flags.lean ====
section
/-! DEFINITION. The block has no flags (10_state.md R23): an outcome is told by the wires of one response. This file
gives those wires (10_state.md R33, 30_encoding.md R68, R69, R71). -/

namespace Sys2Proof.Machine

/-- The 3-bit error code (R71). -/
def errCode : Err → BitVec 3
  | .unknownOpcode => 1
  | .malformedOperand => 2
  | .widthOverflow => 3
  | .invalidArgument => 4
  | .invalidOp => 5

/-- The 2-bit routine code (R69). -/
def routineCode : Routine → BitVec 2
  | .ls => 0
  | .arith2 => 1
  | .shift => 2
  | .io => 3

/-- The response output ports of R33, less `rsp_valid`. -/
structure Wires where
  err : BitVec 3
  intY : Int
  bvY : BitVector
  bitY : Bool
  wordY : Word
  fmtY : BitVec 3
  routineY : BitVec 2
  opcodeY : Byte
  fieldsY : DecodedFields
  deriving DecidableEq, Repr

/-- Every output driven to 0 (R33). -/
def Wires.zero (p : Params) : Wires :=
  { err := 0, intY := 0, bvY := tabulate p.vmax fun _ => false, bitY := false, wordY := tabulate p.wordW fun _ => false,
    fmtY := 0, routineY := 0, opcodeY := 0, fieldsY := DecodedFields.zero }

/-- The wires of a response (R33): an output the operation does not define, and every data output of a failure, is 0. -/
def responseWires (p : Params) : Response → Wires
  | .success (.int v) => { Wires.zero p with intY := v }
  | .success (.vector bv) => { Wires.zero p with bvY := bv }
  | .success (.bit b) => { Wires.zero p with bitY := b }
  | .success (.word wd) => { Wires.zero p with wordY := wd }
  | .success (.pack r) =>
    { Wires.zero p with
      wordY := r.word, fmtY := r.format.code, routineY := routineCode r.routine, opcodeY := r.opcode, fieldsY := r.fields }
  | .failure e => { Wires.zero p with err := errCode e }

/-- The output wires of the cycle just run: none while `rsp_valid = 0`, when they carry no response
(DESIGN CHOICE, log 8). -/
def State.wires (s : State) : Option Wires := s.rsp.map (responseWires s.config.params)

end Sys2Proof.Machine
end

