-- ==== Sys2Proof/Safety.lean ====
section
/-! DEFINITION. What claims are stated in: the response of an instruction and of a request as functions of the configuration
(00_scope.md R6, R59), a response that fits the output ports, and the states the block can be in. -/

namespace Sys2Proof

open Sys2Proof.Machine

/-- `U(bv, w)` as R12 writes it, a finite sum. -/
def unsignedSum (bv : List Bool) (w : Nat) : Nat :=
  ∑ i ∈ Finset.range w, if elemAt bv i then 2 ^ (w - 1 - i) else 0

/-- `S(bv, w) = U(bv, w) - bv.e[0] * 2^w` (R12). -/
def signedSum (bv : List Bool) (w : Nat) : Int :=
  (unsignedSum bv w : Int) - if elemAt bv 0 then 2 ^ w else 0

/-- A numeric token of R79: one or more characters `'0'` to `'9'` whose decimal value is at most 255. -/
def numericToken (n : List Byte) : Prop :=
  n ≠ [] ∧ (∀ b ∈ n, 0x30 ≤ b.toNat ∧ b.toNat ≤ 0x39) ∧
    Nat.ofDigits 10 (n.reverse.map fun b => b.toNat - 0x30) ≤ 255

/-- The rest of a line after a field, `[ , t ... ]` of R88: nothing, or a comma and any text. -/
def lineRest (rest : List Byte) : Prop := rest = [] ∨ ∃ more, rest = charComma :: more

/-- The response of an instruction. -/
def Instr.response (c : Config) : Instr → Response
  | .toUnsigned bits width => toUnsignedResponse c bits width
  | .toSigned bits width => toSignedResponse c bits width
  | .fromInteger value width => fromIntegerResponse c value width
  | .resize source sw dw => resizeResponse c source sw dw
  | .testBit b k => testBitResponse b k
  | .copyBits b word n h => copyBitsResponse c b word n h
  | .packOne o text word => packResponse c .one o word (parseOne text)
  | .packTwo o text word => packResponse c .two o word (parseTwo text)
  | .packThree o text word => packResponse c .three o word (parseThree text)
  | .packFour o text word => packResponse c .four o word (parseFour text)
  | .packFive o text word => packResponse c .five o word (parseFive text)
  | .packSix o text word => packResponse c .six o word (parseSix text)
  | .packSeven o text word => packResponse c .seven o word (parseSeven text)
  | .packEight o text word => packResponse c .eight o word (parseEight text)
  | .reservedSeven => .failure .invalidOp
  | .reservedHigh _ => .failure .invalidOp

/-- The response of a request: its row's, or the error with which it fails before a row is selected. -/
def requestResponse (c : Config) (r : Request) : Response :=
  match decodeRequest c r with
  | .error e => .failure e
  | .ok i => i.response c

/-- What enters the pipeline in a cycle that is not held in reset. -/
def cycleResponse (c : Config) (x : CycleInput) : Option Response :=
  if x.reqValid then some (requestResponse c x.req) else none

namespace Machine

/-- A result fits the output ports of R33: an integer fits `int_y`, a vector has `VMAX` elements, a word `WORD_W`, and
a PACK result's routine is its format's (R70). -/
def resultFits (p : Params) : Result → Bool
  | .int v => p.intFits v
  | .vector bv => p.vectorFits bv
  | .bit _ => true
  | .word wd => p.wordFits wd
  | .pack r => p.wordFits r.word && decide (r.routine = routineOf r.format)

/-- A response fits the output ports. -/
def responseFits (p : Params) : Response → Bool
  | .success r => resultFits p r
  | .failure _ => true

/-- The states of a block in operation: its configuration is one R83 allows, it has LATENCY pipeline stages (R34), every
input lined up fits the ports (R32), and every response in flight or presented fits the output ports (R33). -/
structure State.Inv (s : State) : Prop where
  legal : configLegal s.config = true
  stages : s.pipeline.length = s.config.latency
  inputsFit : ∀ x ∈ s.inputs, x.req.wf s.config.params = true
  inFlightFit : ∀ r, some r ∈ s.pipeline → responseFits s.config.params r = true
  presentedFits : ∀ r, s.rsp = some r → responseFits s.config.params r = true

end Machine

end Sys2Proof
end

