-- ==== Sys2Proof/Certificates/Slice0/Obligations.lean ====
section
/-! DEFINITION. The statements for the provers. A response is presented through `State.respond`, whose effect on the pipeline
and the output ports `Obligations.ExecChangesOnlyPipelineAndOutput` and `Obligations.ResponsesLeaveInOrder` say. -/

open Sys2Proof Sys2Proof.Machine

/-! ## Bit-Width Converter -/

/-- R101: TO_UNSIGNED is selected by `op = 0x0` and answers the exact weighted sum of the elements below the width, or
INVALID_ARGUMENT for a width outside `[1, VMAX]`, or WIDTH_OVERFLOW when the sum does not fit `int_y`, which with the
default parameters is exactly width 64 with element 0 set. -/
def Obligations.ToUnsignedAnswersWeightedSum : Prop :=
  (∀ (c : Config) (r : Request), r.op = 0x0#4 → decodeRequest c r = .ok (.toUnsigned r.bvA r.wA)) ∧
  ∀ (s : State) (bits : BitVector) (w : Nat),
    (w < 1 ∨ s.config.params.vmax < w →
      exec (.toUnsigned bits w) s = .next (s.respond (.failure .invalidArgument))) ∧
    (1 ≤ w → w ≤ s.config.params.vmax → unsignedSum bits w ≤ 2 ^ (s.config.params.intW - 1) - 1 →
      exec (.toUnsigned bits w) s = .next (s.respond (.success (.int (unsignedSum bits w))))) ∧
    (1 ≤ w → w ≤ s.config.params.vmax → 2 ^ (s.config.params.intW - 1) - 1 < unsignedSum bits w →
      exec (.toUnsigned bits w) s = .next (s.respond (.failure .widthOverflow))) ∧
    (1 ≤ w → w ≤ 64 → s.config.params = Params.default →
      (2 ^ (s.config.params.intW - 1) - 1 < unsignedSum bits w ↔ w = 64 ∧ elemAt bits 0 = true))

/-- R102: TO_SIGNED is selected by `op = 0x1`; with element 0 clear it answers the unsigned value, with element 0 set
the complemented elements' value plus one, negated; nothing but a width outside `[1, VMAX]` fails. The range of the
value, which R102 derives from R103, is in `Obligations.ToSignedIsTwosComplementValue`. -/
def Obligations.ToSignedAnswersByComplement : Prop :=
  (∀ (c : Config) (r : Request), r.op = 0x1#4 → decodeRequest c r = .ok (.toSigned r.bvA r.wA)) ∧
  ∀ (s : State) (bits : BitVector) (w : Nat),
    (w < 1 ∨ s.config.params.vmax < w →
      exec (.toSigned bits w) s = .next (s.respond (.failure .invalidArgument))) ∧
    (1 ≤ w → w ≤ s.config.params.vmax → elemAt bits 0 = false →
      exec (.toSigned bits w) s = .next (s.respond (.success (.int (unsignedSum bits w))))) ∧
    (1 ≤ w → w ≤ s.config.params.vmax → elemAt bits 0 = true →
      exec (.toSigned bits w) s = .next (s.respond (.success (.int
        (-(((∑ i ∈ Finset.range w, if elemAt bits i then 0 else 2 ^ (w - 1 - i) : Nat) : Int) + 1))))))

/-- R103, a rule the spec marks [derived]: TO_SIGNED computes `U(bv, w) - bv.e[0] * 2^w`; the value lies in `[-2^(w-1),
2^(w-1))`, which R102 derives from it. -/
def Obligations.ToSignedIsTwosComplementValue : Prop :=
  ∀ (s : State) (bits : BitVector) (w : Nat), 1 ≤ w → w ≤ s.config.params.vmax →
    exec (.toSigned bits w) s = .next (s.respond (.success (.int (signedSum bits w)))) ∧
      -(2 ^ (w - 1) : Int) ≤ signedSum bits w ∧ signedSum bits w < 2 ^ (w - 1)

/-- R104: FROM_INTEGER is selected by `op = 0x2` and answers the vector whose element `i` below the width is bit `w-1-i`
of a value at or above 0, and the complement of that bit of the magnitude less one for a negative value; elements at and
above the width are 0, as R104 says (no other statement reads them); nothing but a width outside `[1, VMAX]` fails. -/
def Obligations.FromIntegerAnswersBits : Prop :=
  (∀ (c : Config) (r : Request), r.op = 0x2#4 → decodeRequest c r = .ok (.fromInteger r.intA r.wA)) ∧
  ∀ (s : State) (v : Int) (w : Nat),
    (w < 1 ∨ s.config.params.vmax < w →
      exec (.fromInteger v w) s = .next (s.respond (.failure .invalidArgument))) ∧
    (1 ≤ w → w ≤ s.config.params.vmax →
      ∃ bv : BitVector, exec (.fromInteger v w) s = .next (s.respond (.success (.vector bv))) ∧
        bv.length = s.config.params.vmax ∧
        (∀ i, i < w → elemAt bv i =
          if 0 ≤ v then v.toNat.testBit (w - 1 - i) else !((-v).toNat - 1).testBit (w - 1 - i)) ∧
        ∀ i, w ≤ i → elemAt bv i = false)

/-- R105, a rule the spec marks [derived]: for every input FROM_INTEGER answers `BV(v mod 2^w, w)`. -/
def Obligations.FromIntegerIsModulo : Prop :=
  ∀ (s : State) (v : Int) (w : Nat), 1 ≤ w → w ≤ s.config.params.vmax →
    ∃ bv : BitVector, exec (.fromInteger v w) s = .next (s.respond (.success (.vector bv))) ∧
      bv.length = s.config.params.vmax ∧
      (∀ i, i < w → elemAt bv i = (v % 2 ^ w).toNat.testBit (w - 1 - i)) ∧
      (unsignedSum bv w : Int) = v % 2 ^ w

/-- R106: RESIZE is selected by `op = 0x3`, checks both widths, right-aligns the source under zeros when it grows, keeps
the low-order elements when it shrinks, and has 0 at and above the destination width, as R106 says. Its value modulo
`2^dw`, which R106 derives, is in `Obligations.ResizeKeepsValueModulo`. -/
def Obligations.ResizeAnswersAlignedElements : Prop :=
  (∀ (c : Config) (r : Request), r.op = 0x3#4 → decodeRequest c r = .ok (.resize r.bvA r.wA r.wB)) ∧
  ∀ (s : State) (src : BitVector) (sw dw : Nat),
    (sw < 1 ∨ s.config.params.vmax < sw ∨ dw < 1 ∨ s.config.params.vmax < dw →
      exec (.resize src sw dw) s = .next (s.respond (.failure .invalidArgument))) ∧
    (1 ≤ sw → sw ≤ s.config.params.vmax → 1 ≤ dw → dw ≤ s.config.params.vmax →
      ∃ bv : BitVector, exec (.resize src sw dw) s = .next (s.respond (.success (.vector bv))) ∧
        bv.length = s.config.params.vmax ∧
        (sw ≤ dw → (∀ j, j < sw → elemAt bv (dw - sw + j) = elemAt src j) ∧
          ∀ i, i < dw - sw → elemAt bv i = false) ∧
        (dw < sw → ∀ j, j < dw → elemAt bv j = elemAt src (sw - dw + j)) ∧
        ∀ i, dw ≤ i → elemAt bv i = false)

/-- R106 and R111 (d), in sentences the spec marks [derived]: RESIZE's vector has the source's unsigned value modulo
`2^dw`, so extension keeps the value. -/
def Obligations.ResizeKeepsValueModulo : Prop :=
  ∀ (s : State) (src : BitVector) (sw dw : Nat),
    1 ≤ sw → sw ≤ s.config.params.vmax → 1 ≤ dw → dw ≤ s.config.params.vmax →
      ∃ bv : BitVector, exec (.resize src sw dw) s = .next (s.respond (.success (.vector bv))) ∧
        unsignedSum bv dw = unsignedSum src sw % 2 ^ dw ∧ (sw ≤ dw → unsignedSum bv dw = unsignedSum src sw)

/-- R107: TEST_BIT is selected by `op = 0x4`, answers bit `k` of the byte, counted from the least significant, and fails
above 7. -/
def Obligations.TestBitAnswersBitOfByte : Prop :=
  (∀ (c : Config) (r : Request), r.op = 0x4#4 → decodeRequest c r = .ok (.testBit r.byteA r.idx)) ∧
  ∀ (s : State) (b : Byte) (k : Nat),
    (7 < k → exec (.testBit b k) s = .next (s.respond (.failure .invalidArgument))) ∧
    (k ≤ 7 → exec (.testBit b k) s = .next (s.respond (.success (.bit (decide (b.toNat / 2 ^ k % 2 = 1))))))

/-- R108: COPY_BITS is selected by `op = 0x5`; it fails for a count above 8 or a written position outside the word; it
writes bit `i` of the byte to element `h - i` and leaves every other element; with a count of 0 the word is unchanged
and the position is not checked. The word as a number, which R108 derives, is in `Obligations.CopyBitsChangesNumber`. -/
def Obligations.CopyBitsAnswersField : Prop :=
  (∀ (c : Config) (r : Request), r.op = 0x5#4 →
    decodeRequest c r = .ok (.copyBits r.byteA r.wordA r.cnt.toNat r.idx)) ∧
  ∀ (s : State) (b : Byte) (wd : Word) (c h : Nat),
    (8 < c → exec (.copyBits b wd c h) s = .next (s.respond (.failure .invalidArgument))) ∧
    (c ≤ 8 → 0 < c → (s.config.params.wordW ≤ h ∨ h + 1 < c) →
      exec (.copyBits b wd c h) s = .next (s.respond (.failure .invalidArgument))) ∧
    (c = 0 → wd.length = s.config.params.wordW →
      exec (.copyBits b wd c h) s = .next (s.respond (.success (.word wd)))) ∧
    (c ≤ 8 → 0 < c → h < s.config.params.wordW → c ≤ h + 1 → wd.length = s.config.params.wordW →
      ∃ y : Word, exec (.copyBits b wd c h) s = .next (s.respond (.success (.word y))) ∧
        y.length = s.config.params.wordW ∧
        (∀ i, i < c → elemAt y (h - i) = b.getLsbD i) ∧
        ∀ k, (k + c ≤ h ∨ h < k) → elemAt y k = elemAt wd k)

/-- R108, in a sentence the spec marks [derived]: as a number, the word's field has its old value replaced by the byte
modulo `2^c`. -/
def Obligations.CopyBitsChangesNumber : Prop :=
  ∀ (s : State) (b : Byte) (wd : Word) (c h : Nat),
    c ≤ 8 → 0 < c → h < s.config.params.wordW → c ≤ h + 1 → wd.length = s.config.params.wordW →
      ∃ y : Word, exec (.copyBits b wd c h) s = .next (s.respond (.success (.word y))) ∧
        unsignedSum y s.config.params.wordW +
            (∑ j ∈ Finset.range c, if elemAt wd (h + 1 - c + j) then 2 ^ (c - 1 - j) else 0) *
              2 ^ (s.config.params.wordW - 1 - h) =
          unsignedSum wd s.config.params.wordW + b.toNat % 2 ^ c * 2 ^ (s.config.params.wordW - 1 - h)

/-- R109, a rule the spec marks [derived]: TO_SIGNED at `sw` then FROM_INTEGER at `dw` is sign extension when `dw >= sw`
and RESIZE when `dw < sw`; the vector is `BV(S mod 2^dw, dw)`, and the signed value survives exactly when it lies in
`[-2^(dw-1), 2^(dw-1))`. -/
def Obligations.SignedResizeByTwoRequests : Prop :=
  ∀ (s : State) (bits : BitVector) (sw dw : Nat),
    1 ≤ sw → sw ≤ s.config.params.vmax → 1 ≤ dw → dw ≤ s.config.params.vmax →
      ∃ (v : Int) (bv : BitVector),
        exec (.toSigned bits sw) s = .next (s.respond (.success (.int v))) ∧
        exec (.fromInteger v dw) s = .next (s.respond (.success (.vector bv))) ∧
        (unsignedSum bv dw : Int) = signedSum bits sw % 2 ^ dw ∧
        (sw ≤ dw → ∀ i, i < dw →
          elemAt bv i = if i < dw - sw then elemAt bits 0 else elemAt bits (i - (dw - sw))) ∧
        (dw < sw → exec (.resize bits sw dw) s = .next (s.respond (.success (.vector bv)))) ∧
        (exec (.toSigned bv dw) s = .next (s.respond (.success (.int v))) ↔
          -(2 ^ (dw - 1) : Int) ≤ v ∧ v < 2 ^ (dw - 1))

/-- R110, a rule the spec marks [derived]: RESIZE gives the same vector as FROM_INTEGER of what TO_UNSIGNED answers,
whenever TO_UNSIGNED does not overflow. -/
def Obligations.UnsignedResizeByTwoRequests : Prop :=
  ∀ (s : State) (bits : BitVector) (sw dw : Nat) (u : Int), 1 ≤ dw → dw ≤ s.config.params.vmax →
    exec (.toUnsigned bits sw) s = .next (s.respond (.success (.int u))) →
      exec (.fromInteger u dw) s = exec (.resize bits sw dw) s ∧
      ∃ bv : BitVector, exec (.resize bits sw dw) s = .next (s.respond (.success (.vector bv))) ∧
        ∀ i, i < dw → elemAt bv i = (unsignedSum bits sw).testBit (dw - 1 - i)

/-- R111 (a), in a rule the spec marks [derived]: a value in `[-2^(w-1), 2^(w-1))` comes back from FROM_INTEGER followed
by TO_SIGNED. -/
def Obligations.SignedRoundTrip : Prop :=
  ∀ (s : State) (v : Int) (w : Nat), 1 ≤ w → w ≤ s.config.params.vmax →
    -(2 ^ (w - 1) : Int) ≤ v → v < 2 ^ (w - 1) →
      ∃ bv : BitVector, exec (.fromInteger v w) s = .next (s.respond (.success (.vector bv))) ∧
        exec (.toSigned bv w) s = .next (s.respond (.success (.int v)))

/-- R111 (b), in a rule the spec marks [derived]: a value in `[0, 2^w)` that `int_a` can carry comes back from
FROM_INTEGER followed by TO_UNSIGNED. -/
def Obligations.UnsignedRoundTrip : Prop :=
  ∀ (s : State) (u : Int) (w : Nat), 1 ≤ w → w ≤ s.config.params.vmax →
    0 ≤ u → u < 2 ^ w → u < 2 ^ (s.config.params.intW - 1) →
      ∃ bv : BitVector, exec (.fromInteger u w) s = .next (s.respond (.success (.vector bv))) ∧
        exec (.toUnsigned bv w) s = .next (s.respond (.success (.int u)))

/-- R111 (c), in a rule the spec marks [derived]: FROM_INTEGER of `-2^(w-1)` gives 1 followed by zeros, and TO_SIGNED of
every vector that has those elements below the width gives `-2^(w-1)`. -/
def Obligations.MostNegativeRoundTrip : Prop :=
  ∀ (s : State) (w : Nat), 1 ≤ w → w ≤ s.config.params.vmax →
    (∃ bv : BitVector, exec (.fromInteger (-(2 ^ (w - 1))) w) s = .next (s.respond (.success (.vector bv))) ∧
      elemAt bv 0 = true ∧ ∀ i, 1 ≤ i → i < w → elemAt bv i = false) ∧
    ∀ bits : BitVector, elemAt bits 0 = true → (∀ i, 1 ≤ i → i < w → elemAt bits i = false) →
      exec (.toSigned bits w) s = .next (s.respond (.success (.int (-(2 ^ (w - 1))))))

/-- R56: vectors that agree below the width an operation interprets get the same response. -/
def Obligations.ElementsAboveWidthIgnored : Prop :=
  ∀ (s : State) (bits bits' : BitVector) (w dw : Nat),
    (∀ i, i < w → elemAt bits i = elemAt bits' i) →
      exec (.toUnsigned bits w) s = exec (.toUnsigned bits' w) s ∧
      exec (.toSigned bits w) s = exec (.toSigned bits' w) s ∧
      exec (.resize bits w dw) s = exec (.resize bits' w dw) s

/-! ## Instruction Packer: the line -/

/-- R135: tokens are the pieces between commas, in order, empty ones kept: they join back to the text, there is one more
token than commas, so at least one, and no token holds a comma; the text split is what stands from one character after
the key on. -/
def Obligations.TokensAreCommaPieces : Prop :=
  (∀ text : List Byte,
    [charComma].intercalate (splitCommas text) = text ∧
    (splitCommas text).length = text.count charComma + 1 ∧
    ∀ t ∈ splitCommas text, charComma ∉ t) ∧
  splitCommas [] = [[]] ∧
  ∀ text : List Byte, tokens text = splitCommas (text.drop (keyLength text + 1))

/-- R79: a numeric token is one or more digits of value at most 255; anything else is malformed; leading zeros do not
change the value. -/
def Obligations.NumericTokenValue : Prop :=
  (∀ t : List Byte, numericToken t →
    parseDec t = .ok (BitVec.ofNat 8 (Nat.ofDigits 10 (t.reverse.map fun b => b.toNat - 0x30)))) ∧
  (∀ t : List Byte, ¬ numericToken t → parseDec t = .error .malformedOperand) ∧
  ∀ t : List Byte, t ≠ [] → parseDec (0x30#8 :: t) = parseDec t

/-- R80: a fixed-offset field is one digit followed by a comma or the end of the line, anything else is malformed; at
the first character of token 0 it agrees with that token read as a number. -/
def Obligations.FixedFieldIsLoneDigit : Prop :=
  (∀ (text : List Byte) (pos : Nat) (v : Byte),
    parseFixed text pos = .ok v ↔
      ∃ b, text[pos]? = some b ∧ 0x30 ≤ b.toNat ∧ b.toNat ≤ 0x39 ∧ v.toNat = b.toNat - 0x30 ∧
        (pos + 1 = text.length ∨ text[pos + 1]? = some 0x2C#8)) ∧
  (∀ (text : List Byte) (pos : Nat) (e : Err), parseFixed text pos = .error e → e = .malformedOperand) ∧
  ∀ (text : List Byte) (v : Byte), parseFixed text (keyLength text + 1) = .ok v → parseTok text 0 = .ok v

/-- R81: an optional token is 0 when the line has no such token; one that is present is read as a number, and is
malformed when it is none. A required token is read so too, but malformed when the line has no such token (R136). -/
def Obligations.OptionalAndRequiredTokens : Prop :=
  ∀ (text : List Byte) (j : Nat),
    ((tokens text).length ≤ j → optTok text j = .ok 0 ∧ parseTok text j = .error .malformedOperand) ∧
    ∀ t, (tokens text)[j]? = some t → optTok text j = parseDec t ∧ parseTok text j = parseDec t ∧
      (¬ numericToken t → optTok text j = .error .malformedOperand ∧ parseTok text j = .error .malformedOperand)

/-- R132: the key is the first two characters when the line begins with "IN" and the first
three otherwise; a line shorter than its key has none. -/
def Obligations.KeyOfLine : Prop :=
  (∀ rest : List Byte, keyOf (0x49#8 :: 0x4E#8 :: rest) = some (.two 0x49#8 0x4E#8) ∧
    keyLength (0x49#8 :: 0x4E#8 :: rest) = 2) ∧
  (∀ (a b d : Byte) (rest : List Byte), ¬ (a = 0x49#8 ∧ b = 0x4E#8) →
    keyOf (a :: b :: d :: rest) = some (.three a b d) ∧ keyLength (a :: b :: d :: rest) = 3) ∧
  keyOf [] = none ∧ (∀ a : Byte, keyOf [a] = none) ∧
  (∀ a b : Byte, ¬ (a = 0x49#8 ∧ b = 0x4E#8) → keyOf [a, b] = none) ∧
  ∀ text : List Byte, keyOf text = none ↔ text.length < keyLength text

/-- R133, R134: a PACK request whose line is too long fails with INVALID_ARGUMENT (R131), one whose line is shorter than
its key or whose key lacks a format or an opcode with UNKNOWN_OPCODE, and any other runs the instruction of its format
with the opcode of its key. -/
def Obligations.PackSelectsByRegistry : Prop :=
  ∀ (s : State) (r : Request), configLegal s.config = true → fetchCycle s = .request r → r.op = 0x6#4 →
    (s.config.params.lineMax < r.lineLen →
      step s = .next (s.consume.respond (.failure .invalidArgument))) ∧
    (r.lineLen ≤ s.config.params.lineMax →
      (r.line.take r.lineLen).length < keyLength (r.line.take r.lineLen) →
      step s = .next (s.consume.respond (.failure .unknownOpcode))) ∧
    ∀ k, r.lineLen ≤ s.config.params.lineMax → keyOf (r.line.take r.lineLen) = some k →
      (s.config.registry.fmt.lookup k = none ∨ s.config.registry.opc.lookup k = none →
        step s = .next (s.consume.respond (.failure .unknownOpcode))) ∧
      ∀ f o, s.config.registry.fmt.lookup k = some f → s.config.registry.opc.lookup k = some o →
        step s = exec (packInstr f o (r.line.take r.lineLen) r.wordA) s.consume

/-- R28, a rule the spec marks [derived], and R26: what the registry holds at a 2-character key other than "IN", or at a
3-character key that begins "IN", and what FLAG_TABLE holds, change no request's response. -/
def Obligations.DeadEntriesUnread : Prop :=
  ∀ (c : Config) (g : Registry) (r : Request),
    (∀ k, k = .two 0x49#8 0x4E#8 ∨ (∃ a b d, k = .three a b d ∧ ¬ (a = 0x49#8 ∧ b = 0x4E#8)) →
      g.fmt.lookup k = c.registry.fmt.lookup k ∧ g.opc.lookup k = c.registry.opc.lookup k) →
    requestResponse { c with registry := g } r = requestResponse c r

/-! ## Instruction Packer: the formats -/

/-- R137: format ONE. -/
def Obligations.PackOneAnswers : Prop :=
  (∀ (c : Config) (r : Request) (o : Byte), r.op = 0x6#4 → selectPack c r = .ok (.one, o) →
    decodeRequest c r = .ok (.packOne o r.text r.wordA)) ∧
  (∀ o t w, (Instr.packOne o t w).selector = 0x30#7) ∧
  ∀ (s : State) (o : Byte) (t : List Byte) (w : Word),
    (∀ gr ix addr ind, parseFixed t 4 = .ok gr → parseTok t 1 = .ok ix → parseTok t 2 = .ok addr →
      optTok t 3 = .ok ind →
      exec (.packOne o t w) s = .next (s.respond (.success (.pack
        { format := .one, routine := .ls, opcode := o,
          fields := { generalRegister := gr, indexRegister := ix, address := addr, indirection := ind, registerX := 0,
                      registerY := 0, count := 0, lr := 0, al := 0, devid := 0 },
          word := wordWrite s.config w o (.ls gr ix ind addr) })))) ∧
    ((∃ e, parseFixed t 4 = .error e ∨ parseTok t 1 = .error e ∨ parseTok t 2 = .error e ∨ optTok t 3 = .error e) →
      exec (.packOne o t w) s = .next (s.respond (.failure .malformedOperand)))

/-- R138: format TWO. -/
def Obligations.PackTwoAnswers : Prop :=
  (∀ (c : Config) (r : Request) (o : Byte), r.op = 0x6#4 → selectPack c r = .ok (.two, o) →
    decodeRequest c r = .ok (.packTwo o r.text r.wordA)) ∧
  (∀ o t w, (Instr.packTwo o t w).selector = 0x31#7) ∧
  ∀ (s : State) (o : Byte) (t : List Byte) (w : Word),
    (∀ ix addr ind, parseFixed t 4 = .ok ix → parseTok t 1 = .ok addr → optTok t 2 = .ok ind →
      exec (.packTwo o t w) s = .next (s.respond (.success (.pack
        { format := .two, routine := .ls, opcode := o,
          fields := { generalRegister := 0, indexRegister := ix, address := addr, indirection := ind, registerX := 0,
                      registerY := 0, count := 0, lr := 0, al := 0, devid := 0 },
          word := wordWrite s.config w o (.ls 0 ix ind addr) })))) ∧
    ((∃ e, parseFixed t 4 = .error e ∨ parseTok t 1 = .error e ∨ optTok t 2 = .error e) →
      exec (.packTwo o t w) s = .next (s.respond (.failure .malformedOperand)))

/-- R139: format THREE. -/
def Obligations.PackThreeAnswers : Prop :=
  (∀ (c : Config) (r : Request) (o : Byte), r.op = 0x6#4 → selectPack c r = .ok (.three, o) →
    decodeRequest c r = .ok (.packThree o r.text r.wordA)) ∧
  (∀ o t w, (Instr.packThree o t w).selector = 0x32#7) ∧
  ∀ (s : State) (o : Byte) (t : List Byte) (w : Word),
    (∀ gr addr, parseFixed t 4 = .ok gr → parseTok t 1 = .ok addr →
      exec (.packThree o t w) s = .next (s.respond (.success (.pack
        { format := .three, routine := .ls, opcode := o,
          fields := { generalRegister := gr, indexRegister := 0, address := addr, indirection := 0, registerX := 0,
                      registerY := 0, count := 0, lr := 0, al := 0, devid := 0 },
          word := wordWrite s.config w o (.ls gr 0 0 addr) })))) ∧
    ((∃ e, parseFixed t 4 = .error e ∨ parseTok t 1 = .error e) →
      exec (.packThree o t w) s = .next (s.respond (.failure .malformedOperand)))

/-- R140: format FOUR, whose address is the whole rest of the line from position 4. -/
def Obligations.PackFourAnswers : Prop :=
  (∀ (c : Config) (r : Request) (o : Byte), r.op = 0x6#4 → selectPack c r = .ok (.four, o) →
    decodeRequest c r = .ok (.packFour o r.text r.wordA)) ∧
  (∀ o t w, (Instr.packFour o t w).selector = 0x33#7) ∧
  ∀ (s : State) (o : Byte) (t : List Byte) (w : Word),
    (∀ addr, parseDec (t.drop 4) = .ok addr →
      exec (.packFour o t w) s = .next (s.respond (.success (.pack
        { format := .four, routine := .ls, opcode := o,
          fields := { generalRegister := 0, indexRegister := 0, address := addr, indirection := 0, registerX := 0,
                      registerY := 0, count := 0, lr := 0, al := 0, devid := 0 },
          word := wordWrite s.config w o (.ls 0 0 0 addr) })))) ∧
    ((∃ e, parseDec (t.drop 4) = .error e) →
      exec (.packFour o t w) s = .next (s.respond (.failure .malformedOperand)))

/-- R141: format FIVE. -/
def Obligations.PackFiveAnswers : Prop :=
  (∀ (c : Config) (r : Request) (o : Byte), r.op = 0x6#4 → selectPack c r = .ok (.five, o) →
    decodeRequest c r = .ok (.packFive o r.text r.wordA)) ∧
  (∀ o t w, (Instr.packFive o t w).selector = 0x34#7) ∧
  ∀ (s : State) (o : Byte) (t : List Byte) (w : Word),
    (∀ rx, parseFixed t 4 = .ok rx →
      exec (.packFive o t w) s = .next (s.respond (.success (.pack
        { format := .five, routine := .arith2, opcode := o,
          fields := { generalRegister := 0, indexRegister := 0, address := 0, indirection := 0, registerX := rx,
                      registerY := 0, count := 0, lr := 0, al := 0, devid := 0 },
          word := wordWrite s.config w o (.arith2 rx 0) })))) ∧
    ((∃ e, parseFixed t 4 = .error e) →
      exec (.packFive o t w) s = .next (s.respond (.failure .malformedOperand)))

/-- R142: format SIX. -/
def Obligations.PackSixAnswers : Prop :=
  (∀ (c : Config) (r : Request) (o : Byte), r.op = 0x6#4 → selectPack c r = .ok (.six, o) →
    decodeRequest c r = .ok (.packSix o r.text r.wordA)) ∧
  (∀ o t w, (Instr.packSix o t w).selector = 0x35#7) ∧
  ∀ (s : State) (o : Byte) (t : List Byte) (w : Word),
    (∀ rx ry, parseFixed t 4 = .ok rx → parseTok t 1 = .ok ry →
      exec (.packSix o t w) s = .next (s.respond (.success (.pack
        { format := .six, routine := .arith2, opcode := o,
          fields := { generalRegister := 0, indexRegister := 0, address := 0, indirection := 0, registerX := rx,
                      registerY := ry, count := 0, lr := 0, al := 0, devid := 0 },
          word := wordWrite s.config w o (.arith2 rx ry) })))) ∧
    ((∃ e, parseFixed t 4 = .error e ∨ parseTok t 1 = .error e) →
      exec (.packSix o t w) s = .next (s.respond (.failure .malformedOperand)))

/-- R143: format SEVEN, whose three tokens are all required. -/
def Obligations.PackSevenAnswers : Prop :=
  (∀ (c : Config) (r : Request) (o : Byte), r.op = 0x6#4 → selectPack c r = .ok (.seven, o) →
    decodeRequest c r = .ok (.packSeven o r.text r.wordA)) ∧
  (∀ o t w, (Instr.packSeven o t w).selector = 0x36#7) ∧
  ∀ (s : State) (o : Byte) (t : List Byte) (w : Word),
    (∀ gr count lr al, parseFixed t 4 = .ok gr → parseTok t 1 = .ok count → parseTok t 2 = .ok lr →
      parseTok t 3 = .ok al →
      exec (.packSeven o t w) s = .next (s.respond (.success (.pack
        { format := .seven, routine := .shift, opcode := o,
          fields := { generalRegister := gr, indexRegister := 0, address := 0, indirection := 0, registerX := 0,
                      registerY := 0, count := count, lr := lr, al := al, devid := 0 },
          word := wordWrite s.config w o (.shift gr count lr al) })))) ∧
    ((∃ e, parseFixed t 4 = .error e ∨ parseTok t 1 = .error e ∨ parseTok t 2 = .error e ∨ parseTok t 3 = .error e) →
      exec (.packSeven o t w) s = .next (s.respond (.failure .malformedOperand)))

/-- R144: format EIGHT, whose digit stands one character after the key. -/
def Obligations.PackEightAnswers : Prop :=
  (∀ (c : Config) (r : Request) (o : Byte), r.op = 0x6#4 → selectPack c r = .ok (.eight, o) →
    decodeRequest c r = .ok (.packEight o r.text r.wordA)) ∧
  (∀ o t w, (Instr.packEight o t w).selector = 0x37#7) ∧
  ∀ (s : State) (o : Byte) (t : List Byte) (w : Word),
    (∀ gr devid, parseFixed t (keyLength t + 1) = .ok gr → parseTok t 1 = .ok devid →
      exec (.packEight o t w) s = .next (s.respond (.success (.pack
        { format := .eight, routine := .io, opcode := o,
          fields := { generalRegister := gr, indexRegister := 0, address := 0, indirection := 0, registerX := 0,
                      registerY := 0, count := 0, lr := 0, al := 0, devid := devid },
          word := wordWrite s.config w o (.io gr devid) })))) ∧
    ((∃ e, parseFixed t (keyLength t + 1) = .error e ∨ parseTok t 1 = .error e) →
      exec (.packEight o t w) s = .next (s.respond (.failure .malformedOperand)))

/-- R88, a rule the spec marks [derived], rows THREE, SIX and EIGHT: the line `K s d , n [, t]`, and no other, succeeds;
for EIGHT also with the 2-character key. -/
def Obligations.GrammarOfOneTokenFormats : Prop :=
  ∀ (c : Config) (o : Byte) (w : Word) (text : List Byte),
    (keyLength text = 3 →
      let accepted := ∃ a b d s g n rest, text = a :: b :: d :: s :: g :: charComma :: (n ++ rest) ∧
        0x30 ≤ g.toNat ∧ g.toNat ≤ 0x39 ∧ numericToken n ∧ lineRest rest
      ((∃ x, (Instr.packThree o text w).response c = .success x) ↔ accepted) ∧
      ((∃ x, (Instr.packSix o text w).response c = .success x) ↔ accepted) ∧
      ((∃ x, (Instr.packEight o text w).response c = .success x) ↔ accepted)) ∧
    (keyLength text = 2 →
      ((∃ x, (Instr.packEight o text w).response c = .success x) ↔
        ∃ s g n rest, text = charI :: charN :: s :: g :: charComma :: (n ++ rest) ∧
          0x30 ≤ g.toNat ∧ g.toNat ≤ 0x39 ∧ numericToken n ∧ lineRest rest))

/-- R88, a rule the spec marks [derived], rows ONE, TWO and SEVEN, for a 3-character key. -/
def Obligations.GrammarOfManyTokenFormats : Prop :=
  ∀ (c : Config) (o : Byte) (w : Word) (text : List Byte), keyLength text = 3 →
    ((∃ x, (Instr.packOne o text w).response c = .success x) ↔
      ∃ a b d s g n m tail, text = a :: b :: d :: s :: g :: charComma :: (n ++ charComma :: (m ++ tail)) ∧
        0x30 ≤ g.toNat ∧ g.toNat ≤ 0x39 ∧ numericToken n ∧ numericToken m ∧
        (tail = [] ∨ ∃ i rest, tail = charComma :: (i ++ rest) ∧ numericToken i ∧ lineRest rest)) ∧
    ((∃ x, (Instr.packTwo o text w).response c = .success x) ↔
      ∃ a b d s g n tail, text = a :: b :: d :: s :: g :: charComma :: (n ++ tail) ∧
        0x30 ≤ g.toNat ∧ g.toNat ≤ 0x39 ∧ numericToken n ∧
        (tail = [] ∨ ∃ i rest, tail = charComma :: (i ++ rest) ∧ numericToken i ∧ lineRest rest)) ∧
    ((∃ x, (Instr.packSeven o text w).response c = .success x) ↔
      ∃ a b d s g n m i rest,
        text = a :: b :: d :: s :: g :: charComma :: (n ++ charComma :: (m ++ charComma :: (i ++ rest))) ∧
        0x30 ≤ g.toNat ∧ g.toNat ≤ 0x39 ∧ numericToken n ∧ numericToken m ∧ numericToken i ∧ lineRest rest)

/-- R88, a rule the spec marks [derived], rows FOUR and FIVE, for a 3-character key. -/
def Obligations.GrammarOfTokenlessFormats : Prop :=
  ∀ (c : Config) (o : Byte) (w : Word) (text : List Byte), keyLength text = 3 →
    ((∃ x, (Instr.packFour o text w).response c = .success x) ↔
      ∃ a b d s n, text = a :: b :: d :: s :: n ∧ numericToken n) ∧
    ((∃ x, (Instr.packFive o text w).response c = .success x) ↔
      ∃ a b d s g rest, text = a :: b :: d :: s :: g :: rest ∧ 0x30 ≤ g.toNat ∧ g.toNat ≤ 0x39 ∧ lineRest rest)

/-- D0 §8 scenario 1 at the block's outputs (R85, a rule the spec marks [derived]): in every legal configuration that
knows "LDA" as format THREE and whose line port holds nine characters, "LDA,1,200" gives general register 1, address 200
and the registry's opcode, whatever the Word Writer; the reference Word Writer's word holds the address where its
placement has 8 bits or more, and the opcode's low bits at the opcode's placement. -/
def Obligations.ScenarioOneForEveryLayout : Prop :=
  ∀ (c : Config) (r : Request) (o : Byte),
    r.op = 0x6#4 → r.lineLen = 9 → 9 ≤ c.params.lineMax →
    r.line.take 9 = [0x4C#8, 0x44#8, 0x41#8, 0x2C#8, 0x31#8, 0x2C#8, 0x32#8, 0x30#8, 0x30#8] →
    c.registry.fmt.lookup (.three 0x4C#8 0x44#8 0x41#8) = some .three →
    c.registry.opc.lookup (.three 0x4C#8 0x44#8 0x41#8) = some o →
      ∃ p : PackResult, requestResponse c r = .success (.pack p) ∧ p.format = .three ∧ p.routine = .ls ∧ p.opcode = o ∧
        p.fields = { DecodedFields.zero with generalRegister := 1, address := 200 } ∧
        ∀ layout, c.wordWriter = .reference layout → configLegal c = true →
          (8 ≤ layout.ls.address.c → ∀ j, j < 8 → elemAt p.word (layout.ls.address.hi - j) = (200#8).getLsbD j) ∧
          ∀ j, j < layout.ls.opcode.c → elemAt p.word (layout.ls.opcode.hi - j) = o.getLsbD j

/-! ## The Word Writer -/

/-- R82: each routine is passed the opcode and exactly its own fields, in this order, each at its own placement. -/
def Obligations.RoutineFieldsInOrder : Prop :=
  (∀ f : DecodedFields,
    writerCall .ls f = .ls f.generalRegister f.indexRegister f.indirection f.address ∧
    writerCall .arith2 f = .arith2 f.registerX f.registerY ∧
    writerCall .shift f = .shift f.generalRegister f.count f.lr f.al ∧
    writerCall .io f = .io f.generalRegister f.devid) ∧
  ∀ (l : Layout) (o a b d e : Byte),
    placedFields l o (.ls a b d e) =
      [(o, l.ls.opcode), (a, l.ls.generalRegister), (b, l.ls.indexRegister), (d, l.ls.indirection),
        (e, l.ls.address)] ∧
    placedFields l o (.arith2 a b) = [(o, l.arith2.opcode), (a, l.arith2.registerX), (b, l.arith2.registerY)] ∧
    placedFields l o (.shift a b d e) =
      [(o, l.shift.opcode), (a, l.shift.generalRegister), (b, l.shift.count), (d, l.shift.lr), (e, l.shift.al)] ∧
    placedFields l o (.io a b) = [(o, l.io.opcode), (a, l.io.generalRegister), (b, l.io.devid)]

/-- R147: under a legal layout the reference Word Writer is COPY_BITS once per field, no such COPY_BITS fails, the order
of the fields does not change the word, and an element no placement covers keeps its value from the starting word. -/
def Obligations.ReferenceWriterIsCopyBits : Prop :=
  ∀ (s : State) (l : Layout) (word : Word) (o : Byte) (call : WriterCall),
    s.config.wordWriter = .reference l → configLegal s.config = true → word.length = s.config.params.wordW →
      (∀ bp ∈ placedFields l o call, ∀ wd : Word, wd.length = s.config.params.wordW →
        exec (.copyBits bp.1 wd bp.2.c bp.2.hi) s = .next (s.respond (.success (.word
          (writeFields s.config.params.wordW wd [bp]))))) ∧
      (∀ bp rest, writeFields s.config.params.wordW word (bp :: rest) =
        writeFields s.config.params.wordW (writeFields s.config.params.wordW word [bp]) rest) ∧
      writeFields s.config.params.wordW word [] = word ∧
      (∀ fields, fields.Perm (placedFields l o call) →
        writeFields s.config.params.wordW word fields = wordWrite s.config word o call) ∧
      ∀ k, (∀ bp ∈ placedFields l o call, ¬ (k ≤ bp.2.hi ∧ bp.2.hi < k + bp.2.c)) →
        elemAt (wordWrite s.config word o call) k = elemAt word k

/-- R84, a rule the spec marks [derived]: under a legal layout element `hi - j` of the word holds bit `j` of the field
placed at `(hi, c)`, and the word keeps its WORD_W elements. -/
def Obligations.ReferenceWordHoldsFields : Prop :=
  ∀ (c : Config) (l : Layout) (word : Word) (o : Byte) (call : WriterCall),
    c.wordWriter = .reference l → configLegal c = true → word.length = c.params.wordW →
      (wordWrite c word o call).length = c.params.wordW ∧
      ∀ bp ∈ placedFields l o call, ∀ j, j < bp.2.c →
        elemAt (wordWrite c word o call) (bp.2.hi - j) = bp.1.getLsbD j

/-- R84, a rule the spec marks [derived]: read as a number, a word built from the all-zero word is the sum of `(f mod
2^c) * 2^(WORD_W - 1 - hi)` over the fields. -/
def Obligations.ReferenceWordNumber : Prop :=
  ∀ (c : Config) (l : Layout) (word : Word) (o : Byte) (call : WriterCall),
    c.wordWriter = .reference l → configLegal c = true → word.length = c.params.wordW →
    (∀ k, elemAt word k = false) →
      unsignedSum (wordWrite c word o call) c.params.wordW =
        ((placedFields l o call).map fun bp =>
          bp.1.toNat % 2 ^ bp.2.c * 2 ^ (c.params.wordW - 1 - bp.2.hi)).sum

/-! ## Errors and wires -/

/-- R66: every reserved `op` selects a reserved row, whatever the other ports, and that row answers INVALID_OP. -/
def Obligations.ReservedAnswersInvalidOp : Prop :=
  (∀ (c : Config) (r : Request), r.op = 0x7#4 → decodeRequest c r = .ok .reservedSeven) ∧
  (∀ (c : Config) (r : Request), 8 ≤ r.op.toNat →
    ∃ low, decodeRequest c r = .ok (.reservedHigh low) ∧ low.toNat = r.op.toNat - 8) ∧
  ∀ s : State, exec .reservedSeven s = .next (s.respond (.failure .invalidOp)) ∧
    ∀ low, exec (.reservedHigh low) s = .next (s.respond (.failure .invalidOp))

/-- R71: the error codes; a success drives 0 and codes 6 and 7 are never driven. -/
def Obligations.ErrorCodesOnWires : Prop :=
  (∀ (p : Params) (r : Result), (responseWires p (.success r)).err = 0#3) ∧
  (∀ p : Params, (responseWires p (.failure .unknownOpcode)).err = 1#3 ∧
    (responseWires p (.failure .malformedOperand)).err = 2#3 ∧
    (responseWires p (.failure .widthOverflow)).err = 3#3 ∧
    (responseWires p (.failure .invalidArgument)).err = 4#3 ∧
    (responseWires p (.failure .invalidOp)).err = 5#3) ∧
  ∀ (p : Params) (r : Response), (responseWires p r).err ≠ 6#3 ∧ (responseWires p r).err ≠ 7#3

/-- R148: a successful PACK drives the codes of its format and routine, its opcode, its ten fields, the Word Writer's
word and `err = 0`; and every other successful operation drives the output R33 says it defines. -/
def Obligations.SuccessDrivesDefinedOutputs : Prop :=
  (∀ (c : Config) (f : Format) (o : Byte) (w : Word) (fs : DecodedFields),
    let y := responseWires c.params (packResponse c f o w (.ok fs))
    y.err = 0#3 ∧ y.fmtY = f.code ∧ y.routineY = routineCode (routineOf f) ∧ y.opcodeY = o ∧ y.fieldsY = fs ∧
      y.wordY = wordWrite c w o (writerCall (routineOf f) fs)) ∧
  ∀ p : Params,
    (∀ v, (responseWires p (.success (.int v))).intY = v) ∧
    (∀ bv, (responseWires p (.success (.vector bv))).bvY = bv) ∧
    (∀ b, (responseWires p (.success (.bit b))).bitY = b) ∧
    ∀ wd, (responseWires p (.success (.word wd))).wordY = wd

/-- R68, R69, R70: the format codes, the routine codes, and the routine of each format. -/
def Obligations.FormatAndRoutineCodes : Prop :=
  Format.code .one = 0#3 ∧ Format.code .two = 1#3 ∧ Format.code .three = 2#3 ∧ Format.code .four = 3#3 ∧
  Format.code .five = 4#3 ∧ Format.code .six = 5#3 ∧ Format.code .seven = 6#3 ∧ Format.code .eight = 7#3 ∧
  (∀ f : Format, Format.ofCode f.code = f) ∧ (∀ b : BitVec 3, (Format.ofCode b).code = b) ∧
  (∀ b : BitVec 2, ∃ r : Routine, routineCode r = b) ∧
  routineCode .ls = 0#2 ∧ routineCode .arith2 = 1#2 ∧ routineCode .shift = 2#2 ∧ routineCode .io = 3#2 ∧
  routineOf .one = .ls ∧ routineOf .two = .ls ∧ routineOf .three = .ls ∧ routineOf .four = .ls ∧
  routineOf .five = .arith2 ∧ routineOf .six = .arith2 ∧ routineOf .seven = .shift ∧ routineOf .eight = .io

/-- R176, a rule the spec marks [derived]: an operation raises no error outside its own list. -/
def Obligations.ErrorsOfEachOperation : Prop :=
  ∀ (c : Config) (r : Request) (e : Err), requestResponse c r = .failure e →
    (e = .invalidOp → 7 ≤ r.op.toNat) ∧
    (7 ≤ r.op.toNat → e = .invalidOp) ∧
    (e = .unknownOpcode ∨ e = .malformedOperand → r.op = 0x6#4) ∧
    (e = .widthOverflow → r.op = 0x0#4)

/-! ## The step -/

/-- The frame of every instruction (R59, R34, R191, R195): it answers a next state, whose only new content is its
response, a function of the instruction and the configuration. The configuration and the inputs lined up are unchanged,
the pipeline keeps its number of stages and only shifts by one, and the output is the oldest stage, or with no stage the
response itself. There is nothing else to change (R20 to R24, R50). DESIGN CHOICE: that the state holds the
configuration (log 1), the inputs lined up (log 4) and the output of the cycle just run, one step being one cycle (log
14). DEDUCED: that a stage holds a response (log 5). -/
def Obligations.ExecChangesOnlyPipelineAndOutput : Prop :=
  ∀ (i : Instr) (s : State), exec i s = .next (s.respond (i.response s.config)) ∧
    ∀ t, exec i s = .next t →
      t.config = s.config ∧ t.inputs = s.inputs ∧ t.pipeline.length = s.pipeline.length ∧
      (s.pipeline = [] → t.rsp = some (i.response s.config)) ∧
      ∀ oldest rest, s.pipeline = oldest :: rest →
        t.rsp = oldest ∧ t.pipeline = rest ++ [some (i.response s.config)]

/-- A step runs the decoded instruction (log 4 says how the environment's cycles stand in the state): when a request is
accepted and selects an instruction, the step is exec of it with the cycle's input consumed. -/
def Obligations.StepRunsDecodedInstruction : Prop :=
  ∀ (s : State) (x : CycleInput) (rest : List CycleInput) (i : Instr),
    configLegal s.config = true → s.inputs = x :: rest → x.reqValid = true →
    (s.config.latency = 0 ∨ x.rstN = true) → decodeRequest s.config x.req = .ok i →
      step s = exec i { s with inputs := rest }

/-- R190: with LATENCY above 0, a cycle with reset low drops its request, clears every stage and presents nothing. -/
def Obligations.ResetDropsAndClears : Prop :=
  ∀ (s : State) (x : CycleInput) (rest : List CycleInput),
    configLegal s.config = true → s.inputs = x :: rest → 0 < s.config.latency → x.rstN = false →
      ∃ t, step s = .next t ∧ t.rsp = none ∧ t.pipeline = List.replicate s.pipeline.length none ∧ t.inputs = rest ∧
        t.config = s.config

/-- R191: with LATENCY 0 the block is combinational: `rsp_valid` is `req_valid`, the response is that of the request
presented in the same cycle, and reset is not read. -/
def Obligations.CombinationalWhenLatencyZero : Prop :=
  ∀ (s : State) (x : CycleInput) (rest : List CycleInput),
    s.Inv → s.config.latency = 0 → s.inputs = x :: rest →
      ∃ t, step s = .next t ∧ t.rspValid = x.reqValid ∧ t.rsp = cycleResponse s.config x ∧ t.pipeline = [] ∧
        t.inputs = rest ∧ t.config = s.config

/-- R83: a LAYOUT that breaks a constraint is refused before anything operates. -/
def Obligations.IllegalLayoutRefused : Prop :=
  ∀ (s : State) (l : Layout), s.config.wordWriter = .reference l →
    (∀ p : Placement, (p ∈ lsPlacements l.ls ∨ p ∈ arith2Placements l.arith2 ∨ p ∈ shiftPlacements l.shift ∨
        p ∈ ioPlacements l.io) →
      (8 < p.c ∨ (0 < p.c ∧ (p.hi + 1 < p.c ∨ s.config.params.wordW ≤ p.hi))) →
      step s = .refused .illegalConfiguration) ∧
    ∀ ps : List Placement, (ps = lsPlacements l.ls ∨ ps = arith2Placements l.arith2 ∨ ps = shiftPlacements l.shift ∨
        ps = ioPlacements l.io) →
      ∀ (i j : Nat) (p q : Placement) (k : Nat), i < j → ps[i]? = some p → ps[j]? = some q →
        k ≤ p.hi → p.hi < k + p.c → k ≤ q.hi → q.hi < k + q.c →
        step s = .refused .illegalConfiguration

/-- The model's form of R25 (log 1): no step changes the configuration, so every lookup of a key gives the same answer
at every request (R51). -/
def Obligations.ConfigurationNeverChanges : Prop :=
  ∀ (n : Nat) (s t : State), Host.Core.run core n s = .next t → t.config = s.config

/-- The invariant holds after reset: no stage is valid and nothing is presented (R35). The configuration at reset is the
model's DESIGN CHOICE: R7's widths with LATENCY 0 (log 17), so the clause on the stages is there about no stage at all,
and open registry contents and Word Writer (log 2, log 3); so are the empty list of inputs (log 4) and what the
invariant asks of the width parameters (log 6, DEDUCED). -/
def Obligations.InvariantAtReset : Prop :=
  State.reset.Inv ∧ State.reset.rspValid = false ∧
    State.reset.pipeline = List.replicate State.reset.config.latency none

/-- Every step keeps the invariant: the configuration stays legal, the pipeline keeps LATENCY stages, and every response
in flight or presented fits its output ports (an integer fits `int_y`, a vector has VMAX elements, a word WORD_W). -/
def Obligations.StepKeepsInvariant : Prop :=
  ∀ s t : State, s.Inv → step s = .next t → t.Inv

/-- From a state that meets the invariant a step always answers a next state: the block never stops. -/
def Obligations.BlockNeverStops : Prop :=
  ∀ s : State, s.Inv → ∃ t, step s = .next t

/-- R195 over the inputs the model lines up (after the last of them it presents nothing: log 4): when no cycle is held
in reset, the response of the request of cycle `t` is presented in cycle `t + LATENCY`, for every operation and outcome,
and a cycle without a request gives none; before that the stages already in flight leave in their order. -/
def Obligations.ResponsesLeaveInOrder : Prop :=
  ∀ (s : State) (t : Nat), s.Inv → (s.config.latency = 0 ∨ ∀ x ∈ s.inputs, x.rstN = true) →
    (∃ s', Host.Core.run core (t + s.config.latency + 1) s = .next s' ∧
      s'.rsp = (s.inputs[t]?).bind (cycleResponse s.config)) ∧
    (t < s.config.latency → ∃ s', Host.Core.run core (t + 1) s = .next s' ∧ s'.rsp = (s.pipeline[t]?).join)

/-- R177, over the inputs the model lines up (log 4): a failure affects no later request; changing one request of the
inputs lined up changes no response but its own. -/
def Obligations.RequestsAreIndependent : Prop :=
  ∀ (s : State) (x : CycleInput) (j t : Nat), s.Inv → x.req.wf s.config.params = true →
    (s.config.latency = 0 ∨ ((∀ y ∈ s.inputs, y.rstN = true) ∧ x.rstN = true)) → t ≠ j →
      ∃ u u', Host.Core.run core (t + s.config.latency + 1) s = .next u ∧
        Host.Core.run core (t + s.config.latency + 1) { s with inputs := s.inputs.set j x } = .next u' ∧
        u.rsp = u'.rsp

/-- R32: an input an operation does not name is ignored: two requests with the same `op` that agree on the ports that
operation reads get the same response; bytes of the line at and above `line_len` are not read (R131). -/
def Obligations.UnnamedPortsIgnored : Prop :=
  ∀ (c : Config) (r r' : Request), r.op = r'.op →
    (r.op = 0x0#4 ∨ r.op = 0x1#4 → r.bvA = r'.bvA → r.wA = r'.wA → requestResponse c r = requestResponse c r') ∧
    (r.op = 0x2#4 → r.intA = r'.intA → r.wA = r'.wA → requestResponse c r = requestResponse c r') ∧
    (r.op = 0x3#4 → r.bvA = r'.bvA → r.wA = r'.wA → r.wB = r'.wB → requestResponse c r = requestResponse c r') ∧
    (r.op = 0x4#4 → r.byteA = r'.byteA → r.idx = r'.idx → requestResponse c r = requestResponse c r') ∧
    (r.op = 0x5#4 → r.byteA = r'.byteA → r.wordA = r'.wordA → r.cnt = r'.cnt → r.idx = r'.idx →
      requestResponse c r = requestResponse c r') ∧
    (r.op = 0x6#4 → r.wordA = r'.wordA → r.lineLen = r'.lineLen → r.line.length = r'.line.length →
      (∀ k, k < r.lineLen → r.line[k]? = r'.line[k]?) → requestResponse c r = requestResponse c r') ∧
    (7 ≤ r.op.toNat → requestResponse c r = requestResponse c r')

/-! ## Encoding -/

/-- Decode and encode agree: every instruction whose operands fit the ports and whose row the registry selects comes
back from its encoded request, with every operand, and the encoded request fits the ports. -/
def Obligations.DecodeOfEncode : Prop :=
  ∀ (c : Config) (i : Instr), i.wf c.params = true → i.selected c.registry = true →
    decodeRequest c (encode c.params i) = .ok i ∧ (configLegal c = true → (encode c.params i).wf c.params = true)

/-- Decoding a request whose ports carry values of their widths gives an instruction whose operands fit and whose row
the registry selects. -/
def Obligations.DecodedInstructionFits : Prop :=
  ∀ (c : Config) (r : Request) (i : Instr), r.wf c.params = true → decodeRequest c r = .ok i →
    i.wf c.params = true ∧ i.selected c.registry = true

/-- R67: every selector stands in the row of the table whose match and mask it meets, and in no other row. -/
def Obligations.SelectorStandsInOneRow : Prop :=
  ∀ (sel : BitVec 7) (o : Byte) (r : Request),
    sel &&& (decodeSelector sel o r).rowMask = (decodeSelector sel o r).rowMatch ∧
    ∀ i : Instr, sel &&& i.rowMask = i.rowMatch →
      i.rowMatch = (decodeSelector sel o r).rowMatch ∧ i.rowMask = (decodeSelector sel o r).rowMask

/-- R65, R67: selectors written out from the table, one of every converter operation, PACK formats ONE and EIGHT and
both reserved rows, decode to their instructions. DESIGN CHOICE (log 9): how a selector stands with operand ports of
zeros under the default parameters (log 17), and, in the last clause, that a word of more than 7 bits decodes to
nothing. -/
def Obligations.SelectorsOfEachFamily : Prop :=
  (∃ b w, decodeTableWord 8 0b00000000 = some (.toUnsigned b w)) ∧
  (∃ b w, decodeTableWord 8 0b00001000 = some (.toSigned b w)) ∧
  (∃ v w, decodeTableWord 8 0b00010000 = some (.fromInteger v w)) ∧
  (∃ b sw dw, decodeTableWord 8 0b00011000 = some (.resize b sw dw)) ∧
  (∃ b w, decodeTableWord 8 0b00100000 = some (.testBit b w)) ∧
  (∃ b wd c h, decodeTableWord 8 0b00101000 = some (.copyBits b wd c h)) ∧
  (∃ o t w, decodeTableWord 8 0b00110000 = some (.packOne o t w)) ∧
  (∃ o t w, decodeTableWord 8 0b00110111 = some (.packEight o t w)) ∧
  decodeTableWord 8 0b00111000 = some .reservedSeven ∧
  decodeTableWord 8 0b01001000 = some (.reservedHigh 1) ∧
  decodeTableWord 8 0b10000000 = none
end

