-- ==== Sys2Proof/Laws/Ops.lean ====
section
/-! SUPPORT. The element of each array the operations build, and the value of a vector as its bits: what 00_scope.md R12
says of `U`, `BV` and `flip`, stated once. -/

namespace Sys2Proof.Machine

@[simp] theorem length_tabulate (n : Nat) (f : Nat → Bool) : (tabulate n f).length = n := by
  simp [tabulate]

theorem elemAt_tabulate (n : Nat) (f : Nat → Bool) (i : Nat) : elemAt (tabulate n f) i = (decide (i < n) && f i) := by
  simp only [elemAt, tabulate, List.getD_eq_getElem?_getD, List.getElem?_map]
  by_cases h : i < n <;> simp [h]

/-- An element past the end of an array reads 0. -/
theorem elemAt_of_length_le {v : List Bool} {i : Nat} (h : v.length ≤ i) : elemAt v i = false := by
  simp [elemAt, h]

/-- Arrays of one length with the same elements are equal. -/
theorem eq_of_elemAt_eq {v w : List Bool} (hl : v.length = w.length) (h : ∀ i, i < v.length → elemAt v i = elemAt w i) :
    v = w := by
  refine List.ext_getElem hl fun i h1 h2 => ?_
  simpa [elemAt, h1, h2] using h i h1

theorem elemAt_vectorOf {vmax w : Nat} (hw : w ≤ vmax) (n i : Nat) :
    elemAt (vectorOf vmax n w) i = (decide (i < w) && n.testBit (w - 1 - i)) := by
  rw [vectorOf, elemAt_tabulate]
  by_cases h : i < w
  · simp [h, Nat.lt_of_lt_of_le h hw]
  · simp [h]

theorem elemAt_flipVector {vmax w : Nat} (hw : w ≤ vmax) (bv : BitVector) (i : Nat) :
    elemAt (flipVector vmax bv w) i = (decide (i < w) && !elemAt bv i) := by
  rw [flipVector, elemAt_tabulate]
  by_cases h : i < w
  · simp [h, Nat.lt_of_lt_of_le h hw]
  · simp [h]

theorem elemAt_resizeVector_grow {vmax sw dw : Nat} (hd : dw ≤ vmax) (h : sw ≤ dw) (bv : BitVector) (i : Nat) :
    elemAt (resizeVector vmax bv sw dw) i = (decide (dw - sw ≤ i ∧ i < dw) && elemAt bv (i - (dw - sw))) := by
  rw [resizeVector, if_pos h, elemAt_tabulate]
  by_cases hi : i < dw
  · simp [hi, Nat.lt_of_lt_of_le hi hd]
  · simp [hi]

theorem elemAt_resizeVector_shrink {vmax sw dw : Nat} (hd : dw ≤ vmax) (h : dw < sw) (bv : BitVector) (i : Nat) :
    elemAt (resizeVector vmax bv sw dw) i = (decide (i < dw) && elemAt bv (sw - dw + i)) := by
  rw [resizeVector, if_neg (by omega), elemAt_tabulate]
  by_cases hi : i < dw
  · simp [hi, Nat.lt_of_lt_of_le hi hd]
  · simp [hi]

@[simp] theorem length_placeBits (n : Nat) (b : Byte) (wd : Word) (c h : Nat) : (placeBits n b wd c h).length = n := by
  simp [placeBits]

theorem elemAt_placeBits {n k : Nat} (hk : k < n) (b : Byte) (wd : Word) (c h : Nat) :
    elemAt (placeBits n b wd c h) k = if k ≤ h ∧ h < k + c then b.getLsbD (h - k) else elemAt wd k := by
  simp [placeBits, elemAt_tabulate, hk]

/-- A sum over a list of indexes is the sum over the range. -/
theorem sum_map_range (f : Nat → Nat) (w : Nat) : ((List.range w).map f).sum = ∑ i ∈ Finset.range w, f i := by
  induction w with
  | zero => rfl
  | succ w ih => rw [List.range_succ, List.map_append, List.sum_append, ih, Finset.sum_range_succ]; simp

/-- The machine's `U` is R12's sum. -/
theorem unsignedValue_eq_sum (bv : List Bool) (w : Nat) : unsignedValue bv w = unsignedSum bv w := sum_map_range _ w

/-- `U` of no element is 0. -/
@[simp] theorem unsignedSum_zero (bv : List Bool) : unsignedSum bv 0 = 0 := rfl

/-- One element more doubles the value and adds the new element. -/
theorem unsignedSum_succ (bv : List Bool) (w : Nat) :
    unsignedSum bv (w + 1) = 2 * unsignedSum bv w + (elemAt bv w).toNat := by
  rw [unsignedSum, unsignedSum, Finset.sum_range_succ, Finset.mul_sum]
  congr 1
  · refine Finset.sum_congr rfl fun i hi => ?_
    have hi : i < w := Finset.mem_range.mp hi
    split
    · rw [← pow_succ']; congr 1; omega
    · rfl
  · cases elemAt bv w <;> simp

/-- `U(bv, w)` lies in `[0, 2^w)`. -/
theorem unsignedSum_lt (bv : List Bool) (w : Nat) : unsignedSum bv w < 2 ^ w := by
  induction w with
  | zero => simp
  | succ w ih =>
    rw [unsignedSum_succ, pow_succ]
    have : (elemAt bv w).toNat ≤ 1 := Bool.toNat_le _
    omega

/-- Bit `j` of `U(bv, w)` is element `w-1-j`. -/
theorem testBit_unsignedSum (bv : List Bool) (w j : Nat) :
    (unsignedSum bv w).testBit j = (decide (j < w) && elemAt bv (w - 1 - j)) := by
  induction w generalizing j with
  | zero => simp
  | succ w ih =>
    have hbit : unsignedSum bv (w + 1) = Nat.bit (elemAt bv w) (unsignedSum bv w) := by
      rw [unsignedSum_succ, Nat.bit_val]
    cases j with
    | zero => rw [hbit, Nat.testBit_bit_zero]; simp
    | succ j =>
      rw [hbit, Nat.testBit_bit_succ, ih]
      by_cases h : j < w
      · have : w - 1 - j = w - (j + 1) := by omega
        simp [h, this]
      · simp [h]

/-- Two vectors with the same elements below a width have the same value at it. -/
theorem unsignedSum_congr {bv bv' : List Bool} {w : Nat} (h : ∀ i, i < w → elemAt bv i = elemAt bv' i) :
    unsignedSum bv w = unsignedSum bv' w :=
  Finset.sum_congr rfl fun i hi => by rw [h i (Finset.mem_range.mp hi)]

/-- A vector whose element `i` is bit `w-1-i` of `n` has value `n mod 2^w`. -/
theorem unsignedSum_of_bits {bv : List Bool} {n w : Nat} (h : ∀ i, i < w → elemAt bv i = n.testBit (w - 1 - i)) :
    unsignedSum bv w = n % 2 ^ w := by
  refine Nat.eq_of_testBit_eq fun j => ?_
  rw [testBit_unsignedSum, Nat.testBit_mod_two_pow]
  by_cases hj : j < w
  · rw [h _ (by omega)]
    congr 2
    omega
  · simp [hj]

/-- The value of the complemented elements is what the value lacks of `2^w - 1` (R103). -/
theorem unsignedSum_add_complement (bv : List Bool) (w : Nat) :
    unsignedSum bv w + (∑ i ∈ Finset.range w, if elemAt bv i then 0 else 2 ^ (w - 1 - i)) + 1 = 2 ^ w := by
  rw [unsignedSum, ← Finset.sum_add_distrib]
  have hterm : ∀ i ∈ Finset.range w,
      ((if elemAt bv i then 2 ^ (w - 1 - i) else 0) + if elemAt bv i then 0 else 2 ^ (w - 1 - i)) = 2 ^ (w - 1 - i) :=
    fun i _ => by split <;> simp
  rw [Finset.sum_congr rfl hterm, Finset.sum_range_reflect (fun i => 2 ^ i) w, Nat.geomSum_eq (le_refl 2)]
  have := Nat.one_le_two_pow (n := w)
  omega

end Sys2Proof.Machine
end

