-- ==== Sys2Proof/Laws/Converter.lean ====
section
/-! SUPPORT. One specification lemma per converter function: the value of TO_SIGNED, the elements of FROM_INTEGER, the value
RESIZE keeps, the elements and the number COPY_BITS leaves. -/

namespace Sys2Proof.Machine

/-- The width check of R100. -/
theorem widthOk_iff {c : Config} {w : Nat} : widthOk c w = true ↔ 1 ≤ w ∧ w ≤ c.params.vmax := by simp [widthOk]

theorem widthOk_eq_false_iff {c : Config} {w : Nat} : widthOk c w = false ↔ w < 1 ∨ c.params.vmax < w := by
  simp only [widthOk, decide_eq_false_iff_not]
  omega

/-! ## TO_SIGNED -/

/-- The sign element tells whether the value reaches `2^(w-1)`. -/
theorem two_pow_le_unsignedSum_iff {bv : List Bool} {w : Nat} (hw : 1 ≤ w) :
    2 ^ (w - 1) ≤ unsignedSum bv w ↔ elemAt bv 0 = true := by
  have hsign : (unsignedSum bv w).testBit (w - 1) = elemAt bv 0 := by
    rw [testBit_unsignedSum]
    have : w - 1 < w := by omega
    simp [this]
  rw [← hsign]
  refine ⟨fun h => ?_, Nat.ge_two_pow_of_testBit⟩
  by_contra hb
  have hlt : unsignedSum bv w < 2 ^ (w - 1) := by
    refine Nat.lt_pow_two_of_testBit _ fun j hj => ?_
    rcases Nat.eq_or_lt_of_le hj with rfl | hj
    · simpa using hb
    · rw [testBit_unsignedSum]
      have : ¬ j < w := by omega
      simp [this]
  omega

/-- The signed value lies in `[-2^(w-1), 2^(w-1))`. -/
theorem signedSum_bounds {bv : List Bool} {w : Nat} (hw : 1 ≤ w) :
    -(2 ^ (w - 1) : Int) ≤ signedSum bv w ∧ signedSum bv w < 2 ^ (w - 1) := by
  have hlt := unsignedSum_lt bv w
  have hsign := two_pow_le_unsignedSum_iff (bv := bv) hw
  have hpow : (2 : Int) ^ w = 2 * 2 ^ (w - 1) := by rw [← pow_succ']; congr 1; omega
  zify at hlt hsign
  rw [signedSum]
  split
  · have := hsign.mpr ‹_›
    omega
  · have : ¬ _ := fun h => ‹¬ _› (hsign.mp h)
    omega

/-- The resize of R102 followed by the flip complements the elements below the width. -/
theorem elemAt_flip_resize {vmax w : Nat} (hw : w ≤ vmax) (bv : BitVector) {i : Nat} (hi : i < w) :
    elemAt (flipVector vmax (resizeVector vmax bv w w) w) i = !elemAt bv i := by
  rw [elemAt_flipVector hw, elemAt_resizeVector_grow hw (le_refl w)]
  simp [hi]

/-- The complement's value, element by element. -/
theorem unsignedSum_flip_resize {vmax w : Nat} (hw : w ≤ vmax) (bv : BitVector) :
    unsignedSum (flipVector vmax (resizeVector vmax bv w w) w) w =
      ∑ i ∈ Finset.range w, if elemAt bv i then 0 else 2 ^ (w - 1 - i) := by
  refine Finset.sum_congr rfl fun i hi => ?_
  rw [elemAt_flip_resize hw bv (Finset.mem_range.mp hi)]
  cases elemAt bv i <;> simp

/-- R103: the steps of R102 compute the two's-complement value. -/
theorem signedValue_eq_signedSum {vmax w : Nat} (hw : w ≤ vmax) (bv : BitVector) :
    signedValue vmax bv w = signedSum bv w := by
  rw [signedValue, signedSum]
  split
  · simp [*, unsignedValue_eq_sum]
  · rw [unsignedValue_eq_sum, unsignedSum_flip_resize hw]
    have h := unsignedSum_add_complement bv w
    zify at h
    simp only [Bool.not_eq_false] at *
    simp only [*, if_true]
    push_cast
    linarith

/-! ## FROM_INTEGER -/

@[simp] theorem length_integerVector (vmax : Nat) (v : Int) (w : Nat) : (integerVector vmax v w).length = vmax := by
  rw [integerVector]
  split <;> simp [vectorOf, flipVector]

/-- A negative value's residue is the complement of the residue of its magnitude less one (R105). -/
theorem emod_two_pow_of_neg {v : Int} (hv : v < 0) (w : Nat) :
    (v % 2 ^ w).toNat = 2 ^ w - (((-v).toNat - 1) % 2 ^ w + 1) := by
  obtain ⟨n, rfl⟩ : ∃ n : Nat, v = -((n : Int) + 1) := ⟨(-v).toNat - 1, by omega⟩
  have hn : (-(-((n : Int) + 1))).toNat - 1 = n := by omega
  rw [hn]
  have hlt : n % 2 ^ w < 2 ^ w := Nat.mod_lt n (by positivity)
  have hsplit : -((n : Int) + 1) = ((2 ^ w - (n % 2 ^ w + 1) : Nat) : Int) + 2 ^ w * (-((n / 2 ^ w : Nat) : Int) - 1) := by
    have hdiv : (2 : Int) ^ w * ((n / 2 ^ w : Nat) : Int) + ((n % 2 ^ w : Nat) : Int) = n := by
      exact_mod_cast Nat.div_add_mod n (2 ^ w)
    rw [Nat.cast_sub (by omega)]
    push_cast at hdiv ⊢
    linarith
  rw [hsplit, Int.add_mul_emod_self_left]
  have hself : ((2 ^ w - (n % 2 ^ w + 1) : Nat) : Int) % 2 ^ w = ((2 ^ w - (n % 2 ^ w + 1) : Nat) : Int) := by
    refine Int.emod_eq_of_lt (Int.natCast_nonneg _) ?_
    have : 2 ^ w - (n % 2 ^ w + 1) < 2 ^ w := by omega
    exact_mod_cast this
  rw [hself, Int.toNat_natCast]

/-- A value at or above 0 has the residue of its natural number. -/
theorem emod_two_pow_of_nonneg {v : Int} (hv : 0 ≤ v) (w : Nat) : (v % 2 ^ w).toNat = v.toNat % 2 ^ w := by
  obtain ⟨n, rfl⟩ := Int.eq_ofNat_of_zero_le hv
  have : ((n : Int) % 2 ^ w) = ((n % 2 ^ w : Nat) : Int) := by push_cast; rfl
  rw [this, Int.toNat_natCast, Int.toNat_natCast]

/-- R105: every element is a bit of the value modulo `2^w`. -/
theorem elemAt_integerVector {vmax w : Nat} (hw : w ≤ vmax) (v : Int) (i : Nat) :
    elemAt (integerVector vmax v w) i = (decide (i < w) && (v % 2 ^ w).toNat.testBit (w - 1 - i)) := by
  rw [integerVector]
  split
  case isTrue hv => rw [elemAt_vectorOf hw, emod_two_pow_of_nonneg hv]
  case isFalse hv =>
    rw [elemAt_flipVector hw, elemAt_vectorOf hw, emod_two_pow_of_neg (by omega),
      Nat.testBit_two_pow_sub_succ (Nat.mod_lt _ (by positivity))]
    by_cases hi : i < w
    · have : w - 1 - i < w := by omega
      simp [hi, this]
    · simp [hi]

/-- The value of FROM_INTEGER's vector is the residue. -/
theorem unsignedSum_integerVector {vmax w : Nat} (hw : w ≤ vmax) (v : Int) :
    (unsignedSum (integerVector vmax v w) w : Int) = v % 2 ^ w := by
  have h : unsignedSum (integerVector vmax v w) w = (v % 2 ^ w).toNat % 2 ^ w :=
    unsignedSum_of_bits fun i hi => by rw [elemAt_integerVector hw]; simp [hi]
  have hnn : 0 ≤ v % 2 ^ w := Int.emod_nonneg v (by positivity)
  have hlt : v % 2 ^ w < 2 ^ w := Int.emod_lt_of_pos v (by positivity)
  have hlt' : (v % 2 ^ w).toNat < 2 ^ w := by zify; rw [Int.toNat_of_nonneg hnn]; exact hlt
  rw [h, Nat.mod_eq_of_lt hlt', Int.toNat_of_nonneg hnn]

/-! ## RESIZE -/

@[simp] theorem length_resizeVector (vmax : Nat) (bv : BitVector) (sw dw : Nat) :
    (resizeVector vmax bv sw dw).length = vmax := by
  rw [resizeVector]
  split <;> simp

/-- Element `i` of a resized vector is bit `dw-1-i` of the source's value, growing and shrinking alike (R110). -/
theorem elemAt_resizeVector {vmax dw : Nat} (hd : dw ≤ vmax) (sw : Nat) (bv : BitVector) (i : Nat) :
    elemAt (resizeVector vmax bv sw dw) i = (decide (i < dw) && (unsignedSum bv sw).testBit (dw - 1 - i)) := by
  rw [testBit_unsignedSum]
  rcases Nat.lt_or_ge dw sw with h | h
  · rw [elemAt_resizeVector_shrink hd h]
    by_cases hi : i < dw
    · have h1 : dw - 1 - i < sw := by omega
      have h2 : sw - 1 - (dw - 1 - i) = sw - dw + i := by omega
      simp [hi, h1, h2]
    · simp [hi]
  · rw [elemAt_resizeVector_grow hd h]
    by_cases hi : i < dw
    · by_cases hp : dw - sw ≤ i
      · have h1 : dw - 1 - i < sw := by omega
        have h2 : sw - 1 - (dw - 1 - i) = i - (dw - sw) := by omega
        simp [hi, hp, h1, h2]
      · have h1 : ¬ dw - 1 - i < sw := by omega
        simp [hi, hp, h1]
    · simp [hi]

/-- RESIZE keeps the value modulo `2^dw` (R106). -/
theorem unsignedSum_resizeVector {vmax dw : Nat} (hd : dw ≤ vmax) (sw : Nat) (bv : BitVector) :
    unsignedSum (resizeVector vmax bv sw dw) dw = unsignedSum bv sw % 2 ^ dw :=
  unsignedSum_of_bits fun i hi => by rw [elemAt_resizeVector hd]; simp [hi]

/-! ## COPY_BITS -/

/-- A sum over the elements a placement writes, counted from its first element. -/
theorem sum_placed_elements {n c h : Nat} (hh : h < n) (hc : c ≤ h + 1) (f : Nat → Nat) :
    (∑ i ∈ Finset.range n, if i ≤ h ∧ h < i + c then f i else 0) = ∑ j ∈ Finset.range c, f (h + 1 - c + j) := by
  rw [← Finset.sum_filter]
  have hset : (Finset.range n).filter (fun i => i ≤ h ∧ h < i + c) = Finset.Ico (h + 1 - c) (h + 1) := by
    ext i
    simp only [Finset.mem_filter, Finset.mem_range, Finset.mem_Ico]
    omega
  rw [hset, Finset.sum_Ico_eq_sum_range]
  congr 2
  omega

/-- The low `c` bits of a byte, the most significant first, have the value of the byte modulo `2^c`. -/
theorem sum_low_bits (b : Byte) (c : Nat) :
    (∑ j ∈ Finset.range c, if b.getLsbD (c - 1 - j) then 2 ^ (c - 1 - j) else 0) = b.toNat % 2 ^ c := by
  have h := unsignedSum_of_bits (bv := tabulate c fun j => b.getLsbD (c - 1 - j)) (n := b.toNat) (w := c)
    fun i hi => by rw [elemAt_tabulate]; simp [hi, BitVec.getLsbD]
  rw [← h, unsignedSum]
  refine Finset.sum_congr rfl fun i hi => ?_
  rw [elemAt_tabulate]
  simp [Finset.mem_range.mp hi]

/-- R108 as numbers: the field's old value goes and the byte modulo `2^c` comes in its place. -/
theorem unsignedSum_placeBits {n c h : Nat} (hh : h < n) (hc : c ≤ h + 1) (b : Byte) (wd : Word) :
    unsignedSum (placeBits n b wd c h) n +
        (∑ j ∈ Finset.range c, if elemAt wd (h + 1 - c + j) then 2 ^ (c - 1 - j) else 0) * 2 ^ (n - 1 - h) =
      unsignedSum wd n + b.toNat % 2 ^ c * 2 ^ (n - 1 - h) := by
  have hweight : ∀ j, j < c → 2 ^ (c - 1 - j) * 2 ^ (n - 1 - h) = 2 ^ (n - 1 - (h + 1 - c + j)) := fun j hj => by
    rw [← pow_add]
    congr 1
    omega
  have hold : (∑ j ∈ Finset.range c, if elemAt wd (h + 1 - c + j) then 2 ^ (c - 1 - j) else 0) * 2 ^ (n - 1 - h) =
      ∑ i ∈ Finset.range n, if i ≤ h ∧ h < i + c then (if elemAt wd i then 2 ^ (n - 1 - i) else 0) else 0 := by
    rw [sum_placed_elements hh hc, Finset.sum_mul]
    refine Finset.sum_congr rfl fun j hj => ?_
    rw [ite_mul, zero_mul, hweight j (Finset.mem_range.mp hj)]
  have hnew : b.toNat % 2 ^ c * 2 ^ (n - 1 - h) =
      ∑ i ∈ Finset.range n, if i ≤ h ∧ h < i + c then (if b.getLsbD (h - i) then 2 ^ (n - 1 - i) else 0) else 0 := by
    rw [sum_placed_elements hh hc, ← sum_low_bits, Finset.sum_mul]
    refine Finset.sum_congr rfl fun j hj => ?_
    have hj := Finset.mem_range.mp hj
    have : h - (h + 1 - c + j) = c - 1 - j := by omega
    rw [ite_mul, zero_mul, hweight j hj, this]
  rw [hold, hnew, unsignedSum, unsignedSum, ← Finset.sum_add_distrib, ← Finset.sum_add_distrib]
  refine Finset.sum_congr rfl fun i hi => ?_
  rw [elemAt_placeBits (Finset.mem_range.mp hi)]
  split
  · rw [add_comm]
  · rfl

end Sys2Proof.Machine
end

