-- ==== Sys2Proof/Laws/Decode.lean ====
section
/-! SUPPORT. What decoding a request gives, once for PACK and once for every other `op`, and what the key of a line is. -/

namespace Sys2Proof

/-- A port of `bitsFor n` bits carries every value up to `n`. -/
theorem lt_two_pow_bitsFor (n : Nat) : n < 2 ^ bitsFor n := by
  rw [bitsFor]
  split
  · subst n; decide
  · exact Nat.lt_log2_self

@[simp] theorem Format.ofCode_code (f : Format) : Format.ofCode f.code = f := by cases f <;> rfl

/-- The selector of a PACK request stands in the row of its format. -/
theorem decodeSelector_pack {r : Request} (h : r.op = opPack) (f : Format) (o : Byte) :
    decodeSelector (r.op ++ f.code) o r = packInstr f o r.text r.wordA := by
  rw [h]
  cases f <;> rfl

/-- A PACK request the registry selects a row for. -/
theorem decodeRequest_pack {c : Config} {r : Request} {f : Format} {o : Byte} (h : r.op = opPack)
    (hs : selectPack c r = .ok (f, o)) : decodeRequest c r = .ok (packInstr f o r.text r.wordA) := by
  rw [decodeRequest, if_pos h, hs]
  exact congrArg Except.ok (decodeSelector_pack h f o)

/-- A PACK request that selects no row. -/
theorem decodeRequest_pack_error {c : Config} {r : Request} {e : Err} (h : r.op = opPack)
    (hs : selectPack c r = .error e) : decodeRequest c r = .error e := by
  rw [decodeRequest, if_pos h, hs]

/-- A request of any other `op` always selects a row, by `op` alone. -/
theorem decodeRequest_of_ne {c : Config} {r : Request} (h : r.op ≠ opPack) :
    decodeRequest c r = .ok (decodeSelector (r.op ++ (0 : BitVec 3)) 0 r) := by
  rw [decodeRequest, if_neg h]

/-- A line's key is "IN", or three characters that do not begin so (R28, R132). -/
theorem keyOf_cases {text : List Byte} {k : Key} (h : keyOf text = some k) :
    k = .two charI charN ∨ ∃ a b d, k = .three a b d ∧ ¬ (a = charI ∧ b = charN) := by
  rw [keyOf] at h
  split at h
  · cases h
  rename_i hlen
  by_cases hin : 2 ≤ text.length ∧ text.getD 0 0 = charI ∧ text.getD 1 0 = charN
  · have hk : keyLength text = 2 := by rw [keyLength, if_pos hin]
    rw [if_pos hk, hin.2.1, hin.2.2] at h
    injection h with h
    exact .inl h.symm
  · have hk : keyLength text = 3 := by rw [keyLength, if_neg hin]
    rw [if_neg (by omega)] at h
    injection h with h
    exact .inr ⟨_, _, _, h.symm, fun hab => hin ⟨by omega, hab⟩⟩

end Sys2Proof
end

