-- ==== Sys2Proof/Laws/Operands.lean ====
section
/-! SUPPORT. The field readers of a PACK line: what splitting on commas gives, which texts each reader accepts, and that each
fails with MALFORMED_OPERAND and nothing else. -/

namespace Sys2Proof.Machine

/-! ## Splitting on commas (R76) -/

@[simp] theorem splitCommas_nil : splitCommas [] = [[]] := rfl

@[simp] theorem splitCommas_comma (t : List Byte) : splitCommas (charComma :: t) = [] :: splitCommas t := by
  simp [splitCommas]

theorem splitCommas_ne_nil (t : List Byte) : splitCommas t ≠ [] := by
  cases t with
  | nil => simp
  | cons b bs =>
    rw [splitCommas]
    split
    · simp
    · split <;> simp

/-- A piece free of commas up to the end of the text. -/
theorem splitCommas_of_notMem {n : List Byte} (h : charComma ∉ n) : splitCommas n = [n] := by
  induction n with
  | nil => rfl
  | cons b bs ih =>
    simp only [List.mem_cons, not_or] at h
    rw [splitCommas, if_neg (fun hb => h.1 hb.symm), ih h.2]

/-- A piece free of commas up to the next comma. -/
theorem splitCommas_append {n : List Byte} (h : charComma ∉ n) (more : List Byte) :
    splitCommas (n ++ charComma :: more) = n :: splitCommas more := by
  induction n with
  | nil => simp
  | cons b bs ih =>
    simp only [List.mem_cons, not_or] at h
    rw [List.cons_append, splitCommas, if_neg (fun hb => h.1 hb.symm), ih h.2]

/-- A text is its first piece alone, or its first piece, a comma and more. -/
theorem splitCommas_cases (t : List Byte) :
    ∃ n, charComma ∉ n ∧
      ((t = n ∧ splitCommas t = [n]) ∨ ∃ more, t = n ++ charComma :: more ∧ splitCommas t = n :: splitCommas more) := by
  induction t with
  | nil => exact ⟨[], by simp, .inl ⟨rfl, rfl⟩⟩
  | cons b bs ih =>
    by_cases hb : b = charComma
    · subst hb
      exact ⟨[], by simp, .inr ⟨bs, rfl, by simp⟩⟩
    · obtain ⟨n, hn, ⟨rfl, hs⟩ | ⟨more, rfl, hs⟩⟩ := ih
      · have hbn : charComma ∉ b :: bs := by simp [hn, Ne.symm hb]
        exact ⟨b :: bs, hbn, .inl ⟨rfl, splitCommas_of_notMem hbn⟩⟩
      · have hbn : charComma ∉ b :: n := by simp [hn, Ne.symm hb]
        exact ⟨b :: n, hbn, .inr ⟨more, rfl, splitCommas_append hbn more⟩⟩

/-! ## Numeric tokens (R79) -/

theorem isDigit_iff {b : Byte} : isDigit b = true ↔ 0x30 ≤ b.toNat ∧ b.toNat ≤ 0x39 := by
  simp [isDigit, charZero, charNine]

/-- The decimal value, written as digits from the least significant. -/
theorem decimalValue_eq_ofDigits (t : List Byte) :
    decimalValue t = Nat.ofDigits 10 (t.reverse.map fun b => b.toNat - 0x30) := by
  rw [decimalValue, Nat.ofDigits_eq_foldr, List.foldr_map, List.foldr_reverse]
  congr 1
  funext v b
  simp [digitValue, charZero, add_comm]

theorem parseDec_of_numericToken {t : List Byte} (h : numericToken t) :
    parseDec t = .ok (BitVec.ofNat 8 (decimalValue t)) := by
  obtain ⟨hne, hd, hv⟩ := h
  have hall : t.all isDigit = true := List.all_eq_true.mpr fun b hb => isDigit_iff.mpr (hd b hb)
  rw [← decimalValue_eq_ofDigits] at hv
  rw [parseDec, if_neg hne, if_neg (by simp [hall]), if_neg (by omega)]

theorem parseDec_of_not_numericToken {t : List Byte} (h : ¬ numericToken t) : parseDec t = .error .malformedOperand := by
  rw [parseDec]
  split
  · rfl
  split
  · rfl
  split
  · rfl
  rename_i hne hall hv
  simp only [Bool.not_eq_false] at hall
  refine absurd ⟨hne, fun b hb => isDigit_iff.mp (List.all_eq_true.mp hall b hb), ?_⟩ h
  rw [← decimalValue_eq_ofDigits]
  omega

/-- ParseDec accepts exactly the numeric tokens. -/
theorem parseDec_ok_iff {t : List Byte} : (∃ v, parseDec t = .ok v) ↔ numericToken t := by
  refine ⟨fun ⟨v, h⟩ => ?_, fun h => ⟨_, parseDec_of_numericToken h⟩⟩
  by_contra hn
  rw [parseDec_of_not_numericToken hn] at h
  cases h

theorem parseDec_error {t : List Byte} {e : Err} (h : parseDec t = .error e) : e = .malformedOperand := by
  by_cases hn : numericToken t
  · rw [parseDec_of_numericToken hn] at h
    cases h
  · rw [parseDec_of_not_numericToken hn] at h
    injection h with h
    exact h.symm

/-- No numeric token holds a comma. -/
theorem comma_notMem_of_numericToken {n : List Byte} (h : numericToken n) : charComma ∉ n := fun hc => by
  have := (h.2.1 _ hc).1
  simp [charComma] at this

/-! ## Fields (R80, R81, R136) -/

theorem parseTok_error {t : List Byte} {j : Nat} {e : Err} (h : parseTok t j = .error e) : e = .malformedOperand := by
  rw [parseTok] at h
  split at h
  · injection h with h
    exact h.symm
  · exact parseDec_error h

theorem optTok_error {t : List Byte} {j : Nat} {e : Err} (h : optTok t j = .error e) : e = .malformedOperand := by
  rw [optTok] at h
  split at h
  · cases h
  · exact parseDec_error h

theorem parseFixed_error {t : List Byte} {pos : Nat} {e : Err} (h : parseFixed t pos = .error e) :
    e = .malformedOperand := by
  rw [parseFixed] at h
  split at h
  · injection h with h
    exact h.symm
  split at h
  · injection h with h
    exact h.symm
  split at h
  · cases h
  split at h
  · cases h
  · injection h with h
    exact h.symm

/-- What a lone digit at `pos` is: a digit with nothing or a comma after it. -/
theorem parseFixed_ok_iff {t : List Byte} {pos : Nat} {v : Byte} :
    parseFixed t pos = .ok v ↔
      ∃ b rest, t.drop pos = b :: rest ∧ isDigit b = true ∧ lineRest rest ∧ v = BitVec.ofNat 8 (digitValue b) := by
  have hdrop : ∀ {b : Byte}, t[pos]? = some b → t.drop pos = b :: t.drop (pos + 1) := fun {b} h => by
    obtain ⟨hlt, rfl⟩ := List.getElem?_eq_some_iff.mp h
    exact List.drop_eq_getElem_cons hlt
  have hnext : t[pos + 1]? = (t.drop (pos + 1)).head? := by rw [List.head?_drop]
  constructor
  · intro h
    rw [parseFixed] at h
    split at h
    · cases h
    rename_i b hb
    split at h
    · cases h
    rename_i hd
    refine ⟨b, t.drop (pos + 1), hdrop hb, by simpa using hd, ?_, ?_⟩
    · rw [hnext] at h
      cases hr : t.drop (pos + 1) with
      | nil => exact .inl rfl
      | cons b' more =>
        rw [hr] at h
        simp only [List.head?_cons] at h
        split at h
        · rename_i hc
          exact .inr ⟨more, by rw [hc]⟩
        · cases h
    · split at h
      · injection h with h
        exact h.symm
      split at h
      · injection h with h
        exact h.symm
      · cases h
  · rintro ⟨b, rest, hr, hd, hrest, rfl⟩
    have hb : t[pos]? = some b := by rw [← List.head?_drop, hr]; rfl
    have htail : t.drop (pos + 1) = rest := by rw [← List.drop_drop, hr]; rfl
    rw [htail] at hnext
    rw [parseFixed, hb]
    simp only [hd, Bool.true_eq_false, if_false, hnext]
    rcases hrest with rfl | ⟨more, rfl⟩ <;> simp

end Sys2Proof.Machine
end

