-- ==== Sys2Proof/Laws/Packer.lean ====
section
/-! SUPPORT. The reference Word Writer (41_packer.md R147) under a layout R83 allows: which placements are legal, and what each
element of the word it writes holds. -/

namespace Sys2Proof.Machine

/-- Element `k` lies in a placement's range `[hi - c + 1, hi]`. -/
abbrev covers (p : Placement) (k : Nat) : Prop := k ≤ p.hi ∧ p.hi < k + p.c

/-- No element lies in the ranges of both placements. -/
abbrev disjoint (p q : Placement) : Prop := ∀ k, ¬ (covers p k ∧ covers q k)

theorem placementInWord_iff {n : Nat} {p : Placement} :
    placementInWord n p = true ↔ p.c ≤ 8 ∧ (0 < p.c → p.c ≤ p.hi + 1 ∧ p.hi < n) := by
  simp only [placementInWord, decide_eq_true_eq]

theorem disjoint_of_apart {n : Nat} {p q : Placement} (hp : placementInWord n p = true)
    (hq : placementInWord n q = true) (h : placementsApart p q = true) : disjoint p q := fun k => by
  rw [placementInWord_iff] at hp hq
  simp only [placementsApart, decide_eq_true_eq] at h
  simp only [covers]
  omega

/-- Legal placements lie in the word and their ranges do not overlap (R83). -/
theorem placementsLegal_spec {n : Nat} {ps : List Placement} (h : placementsLegal n ps = true) :
    (∀ p ∈ ps, placementInWord n p = true) ∧ ps.Pairwise disjoint := by
  induction ps with
  | nil => simp
  | cons p ps ih =>
    simp only [placementsLegal, Bool.and_eq_true, List.all_eq_true] at h
    obtain ⟨⟨hp, hapart⟩, hps⟩ := h
    obtain ⟨hin, hdis⟩ := ih hps
    exact ⟨by simpa [hp] using hin,
      List.pairwise_cons.mpr ⟨fun q hq => disjoint_of_apart hp (hin q hq) (hapart q hq), hdis⟩⟩

/-- The placements a call uses are those of its routine. -/
theorem placedFields_placements (l : Layout) (o : Byte) (call : WriterCall) :
    (placedFields l o call).map Prod.snd =
      match call with
      | .ls _ _ _ _ => lsPlacements l.ls
      | .arith2 _ _ => arith2Placements l.arith2
      | .shift _ _ _ _ => shiftPlacements l.shift
      | .io _ _ => ioPlacements l.io := by
  cases call <;> rfl

/-- Under a legal configuration the placements a call uses are legal. -/
theorem placedFields_legal {c : Config} {l : Layout} (hw : c.wordWriter = .reference l) (hc : configLegal c = true)
    (o : Byte) (call : WriterCall) :
    (∀ bp ∈ placedFields l o call, placementInWord c.params.wordW bp.2 = true) ∧
      ((placedFields l o call).map Prod.snd).Pairwise disjoint := by
  simp only [configLegal, hw, layoutLegal, Bool.and_eq_true] at hc
  have hlegal : placementsLegal c.params.wordW ((placedFields l o call).map Prod.snd) = true := by
    rw [placedFields_placements]
    cases call <;> simp only [hc]
  obtain ⟨hin, hdis⟩ := placementsLegal_spec hlegal
  exact ⟨fun bp hbp => hin _ (List.mem_map_of_mem hbp), hdis⟩

theorem wordWrite_reference {c : Config} {l : Layout} (hw : c.wordWriter = .reference l) (word : Word) (o : Byte)
    (call : WriterCall) : wordWrite c word o call = writeFields c.params.wordW word (placedFields l o call) := by
  rw [wordWrite, hw]

theorem writeFields_cons (n : Nat) (word : Word) (bp : Byte × Placement) (rest : List (Byte × Placement)) :
    writeFields n word (bp :: rest) = writeFields n (placeBits n bp.1 word bp.2.c bp.2.hi) rest := rfl

theorem length_writeFields {n : Nat} {word : Word} (h : word.length = n) (fields : List (Byte × Placement)) :
    (writeFields n word fields).length = n := by
  induction fields generalizing word with
  | nil => exact h
  | cons bp rest ih => exact ih (length_placeBits ..)

/-- An element no placement covers keeps its value. -/
theorem elemAt_writeFields_of_uncovered {n k : Nat} (hk : k < n) {fields : List (Byte × Placement)}
    (h : ∀ bp ∈ fields, ¬ covers bp.2 k) (word : Word) : elemAt (writeFields n word fields) k = elemAt word k := by
  induction fields generalizing word with
  | nil => rfl
  | cons bp rest ih =>
    rw [writeFields_cons, ih (fun q hq => h q (List.mem_cons_of_mem _ hq)), elemAt_placeBits hk]
    exact if_neg (h bp List.mem_cons_self)

/-- An element a placement covers holds that field's bit. -/
theorem elemAt_writeFields_of_covered {n k : Nat} (hk : k < n) {fields : List (Byte × Placement)}
    (hdis : (fields.map Prod.snd).Pairwise disjoint) {bp : Byte × Placement} (hm : bp ∈ fields) (hc : covers bp.2 k)
    (word : Word) : elemAt (writeFields n word fields) k = bp.1.getLsbD (bp.2.hi - k) := by
  induction fields generalizing word with
  | nil => cases hm
  | cons b rest ih =>
    rw [List.map_cons, List.pairwise_cons] at hdis
    rw [writeFields_cons]
    rcases List.mem_cons.mp hm with rfl | hm
    · rw [elemAt_writeFields_of_uncovered hk
        (fun q hq hcq => hdis.1 q.2 (List.mem_map_of_mem hq) k ⟨hc, hcq⟩), elemAt_placeBits hk]
      exact if_pos hc
    · exact ih hdis.2 hm _

/-- The Word Writer's word has `WORD_W` elements, whichever it is. -/
@[simp] theorem length_wordWrite (c : Config) (word : Word) (o : Byte) (call : WriterCall) :
    (wordWrite c word o call).length = c.params.wordW := by
  rw [wordWrite]
  split
  · cases call <;>
      simp [writeFields, placedFields, lsPlacements, arith2Placements, shiftPlacements, ioPlacements]
  · simp

end Sys2Proof.Machine
end

