-- ==== Sys2Proof/Laws/Grammar.lean ====
section
/-! SUPPORT. Reading a PACK line from the left (30_encoding.md R88): a fixed digit and then tokens, each lemma peeling one field
off the text. -/

namespace Sys2Proof.Machine

/-- The required token `j` of a list of tokens. -/
def readTok (ts : List (List Byte)) (j : Nat) : Except Err Byte :=
  match ts[j]? with
  | none => .error .malformedOperand
  | some t => parseDec t

/-- The optional token `j` of a list of tokens. -/
def readOpt (ts : List (List Byte)) (j : Nat) : Except Err Byte :=
  match ts[j]? with
  | none => .ok 0
  | some t => parseDec t

theorem parseTok_succ (t : List Byte) (j : Nat) : parseTok t (j + 1) = readTok (tokens t).tail j := by
  unfold parseTok readTok
  cases tokens t <;> rfl

theorem optTok_succ (t : List Byte) (j : Nat) : optTok t (j + 1) = readOpt (tokens t).tail j := by
  unfold optTok readOpt
  cases tokens t <;> rfl

theorem readTok_succ (ts : List (List Byte)) (j : Nat) : readTok ts (j + 1) = readTok ts.tail j := by
  rw [readTok, readTok, List.getElem?_tail]

theorem readOpt_succ (ts : List (List Byte)) (j : Nat) : readOpt ts (j + 1) = readOpt ts.tail j := by
  rw [readOpt, readOpt, List.getElem?_tail]

/-- A text always has a token 0, so an optional token 0 is a required one. -/
theorem readOpt_splitCommas (t : List Byte) : readOpt (splitCommas t) 0 = readTok (splitCommas t) 0 := by
  cases h : splitCommas t with
  | nil => exact absurd h (splitCommas_ne_nil t)
  | cons => rfl

/-- Two steps of a parse succeed when each does. -/
theorem bind_ok_iff {α β : Type} {x : Except Err α} {f : α → Except Err β} :
    (∃ y, (x >>= f) = .ok y) ↔ ∃ a, x = .ok a ∧ ∃ y, f a = .ok y := by
  cases x <;> simp [bind, Except.bind]

/-- A PACK response is a success exactly when its fields parse. -/
theorem packResponse_success_iff {c : Config} {f : Format} {o : Byte} {w : Word} {x : Except Err DecodedFields} :
    (∃ r, packResponse c f o w x = .success r) ↔ ∃ y, x = .ok y := by
  cases x <;> simp [packResponse]

theorem parseFixed_succeeds_iff {t : List Byte} {pos : Nat} :
    (∃ v, parseFixed t pos = .ok v) ↔ ∃ b rest, t.drop pos = b :: rest ∧ isDigit b = true ∧ lineRest rest :=
  ⟨fun ⟨_, h⟩ => let ⟨b, rest, h1, h2, h3, _⟩ := parseFixed_ok_iff.mp h; ⟨b, rest, h1, h2, h3⟩,
   fun ⟨b, rest, h1, h2, h3⟩ => ⟨_, parseFixed_ok_iff.mpr ⟨b, rest, h1, h2, h3, rfl⟩⟩⟩

theorem comma_notMem_digit {g : Byte} (h : isDigit g = true) : charComma ∉ [g] := fun hc => by
  have hg : charComma = g := by simpa using hc
  rw [← hg] at h
  exact absurd h (by decide)

/-- The fixed digit of a line and a condition on the tokens after token 0 that no missing token meets: the line has the
digit, a comma, and a text whose tokens meet the condition. -/
theorem fixed_then_tokens {t : List Byte} {pos : Nat} (hp : pos = keyLength t + 1) {P : List (List Byte) → Prop}
    (hP : ¬ P []) :
    ((∃ v, parseFixed t pos = .ok v) ∧ P (tokens t).tail) ↔
      ∃ g more, t.drop pos = g :: charComma :: more ∧ isDigit g = true ∧ P (splitCommas more) := by
  have hsplit : ∀ {g : Byte} (more), isDigit g = true →
      splitCommas (g :: charComma :: more) = [g] :: splitCommas more := fun more hg =>
    splitCommas_append (comma_notMem_digit hg) more
  rw [parseFixed_succeeds_iff, tokens, ← hp]
  constructor
  · rintro ⟨⟨g, rest, hr, hg, hrest⟩, htail⟩
    rw [hr] at htail
    rcases hrest with rfl | ⟨more, rfl⟩
    · rw [splitCommas_of_notMem (comma_notMem_digit hg)] at htail
      exact absurd htail hP
    · rw [hsplit more hg] at htail
      exact ⟨g, more, hr, hg, htail⟩
  · rintro ⟨g, more, hr, hg, htail⟩
    exact ⟨⟨g, _, hr, hg, .inr ⟨more, rfl⟩⟩, by rw [hr, hsplit more hg]; exact htail⟩

/-- A required first token is a numeric token up to a comma or the end. -/
theorem readTok_zero_iff {t : List Byte} :
    (∃ v, readTok (splitCommas t) 0 = .ok v) ↔ ∃ n rest, t = n ++ rest ∧ numericToken n ∧ lineRest rest := by
  obtain ⟨m, hm, ⟨rfl, hs⟩ | ⟨more, rfl, hs⟩⟩ := splitCommas_cases t
  · simp only [hs, readTok, List.getElem?_cons_zero, parseDec_ok_iff]
    constructor
    · exact fun h => ⟨t, [], by simp, h, .inl rfl⟩
    · rintro ⟨n, rest, rfl, hn, rfl | ⟨more, rfl⟩⟩
      · simpa using hn
      · simp at hm
  · simp only [hs, readTok, List.getElem?_cons_zero, parseDec_ok_iff]
    constructor
    · exact fun h => ⟨m, _, rfl, h, .inr ⟨more, rfl⟩⟩
    · rintro ⟨n, rest, heq, hn, hrest⟩
      have hc := comma_notMem_of_numericToken hn
      have hhead : (splitCommas (n ++ rest)).head? = some n := by
        rcases hrest with rfl | ⟨more, rfl⟩
        · rw [List.append_nil, splitCommas_of_notMem hc]; rfl
        · rw [splitCommas_append hc]; rfl
      rw [← heq, hs] at hhead
      injection hhead with hhead
      rwa [hhead]

/-- A required first token and a condition on the tokens after it. -/
theorem readTok_then_iff {t : List Byte} {P : List (List Byte) → Prop} :
    ((∃ v, readTok (splitCommas t) 0 = .ok v) ∧ P (splitCommas t).tail) ↔
      ∃ n tail, t = n ++ tail ∧ numericToken n ∧
        ((tail = [] ∧ P []) ∨ ∃ more, tail = charComma :: more ∧ P (splitCommas more)) := by
  constructor
  · rintro ⟨hread, htail⟩
    obtain ⟨n, rest, rfl, hn, hrest⟩ := readTok_zero_iff.mp hread
    have hc := comma_notMem_of_numericToken hn
    rcases hrest with rfl | ⟨more, rfl⟩
    · rw [List.append_nil, splitCommas_of_notMem hc] at htail
      exact ⟨n, [], rfl, hn, .inl ⟨rfl, htail⟩⟩
    · rw [splitCommas_append hc] at htail
      exact ⟨n, _, rfl, hn, .inr ⟨more, rfl, htail⟩⟩
  · rintro ⟨n, tail, rfl, hn, ⟨rfl, h⟩ | ⟨more, rfl, h⟩⟩
    · have hc := comma_notMem_of_numericToken hn
      exact ⟨readTok_zero_iff.mpr ⟨n, [], rfl, hn, .inl rfl⟩, by
        rw [List.append_nil, splitCommas_of_notMem hc]; exact h⟩
    · have hc := comma_notMem_of_numericToken hn
      exact ⟨readTok_zero_iff.mpr ⟨n, _, rfl, hn, .inr ⟨more, rfl⟩⟩, by rw [splitCommas_append hc]; exact h⟩

/-- What stands from position 4 on, after a 3-character key and the separator. -/
theorem drop_four_iff {t l : List Byte} (hl : l ≠ []) : t.drop 4 = l ↔ ∃ a b d s, t = a :: b :: d :: s :: l := by
  constructor
  · intro h
    rcases t with _ | ⟨a, _ | ⟨b, _ | ⟨d, _ | ⟨s, t⟩⟩⟩⟩ <;>
      simp only [List.drop_nil, List.drop_succ_cons, List.drop_zero] at h
    · exact absurd h.symm hl
    · exact absurd h.symm hl
    · exact absurd h.symm hl
    · exact absurd h.symm hl
    · exact ⟨a, b, d, s, by rw [h]⟩
  · rintro ⟨a, b, d, s, rfl⟩
    rfl

/-- What stands from position 3 on, after the key "IN" and the separator. -/
theorem drop_three_iff {t l : List Byte} (hl : l ≠ []) (hk : keyLength t = 2) :
    t.drop 3 = l ↔ ∃ s, t = charI :: charN :: s :: l := by
  obtain ⟨rest, rfl⟩ : ∃ rest, t = charI :: charN :: rest := by
    rw [keyLength] at hk
    split at hk
    · rename_i hin
      rcases t with _ | ⟨a, _ | ⟨b, t⟩⟩ <;> simp at hin
      exact ⟨t, by rw [hin.1, hin.2]⟩
    · cases hk
  constructor
  · intro h
    rcases rest with _ | ⟨s, rest⟩ <;> simp only [List.drop_nil, List.drop_succ_cons, List.drop_zero] at h
    · exact absurd h.symm hl
    · exact ⟨s, by rw [h]⟩
  · rintro ⟨s, h⟩
    rw [h]
    rfl

end Sys2Proof.Machine
end

