-- ==== Sys2Proof/Laws/PerInstr.lean ====
section
/-! SUPPORT. Statements about every instruction as syntax, one lemma per constructor. -/

namespace Sys2Proof.Laws

/-- The encoder's selector stands in the instruction's own row of spec/opcode_table.json (30_encoding.md R67). -/
def SelectorInRow.Statement (i : Instr) : Prop := i.selector &&& i.rowMask = i.rowMatch

theorem SelectorInRow.toUnsigned (bits : BitVector) (width : Nat) : SelectorInRow.Statement (.toUnsigned bits width) := by
  simp [SelectorInRow.Statement, Instr.selector, Instr.rowMask, Instr.rowMatch]

theorem SelectorInRow.toSigned (bits : BitVector) (width : Nat) : SelectorInRow.Statement (.toSigned bits width) := by
  simp [SelectorInRow.Statement, Instr.selector, Instr.rowMask, Instr.rowMatch]

theorem SelectorInRow.fromInteger (value : Int) (width : Nat) : SelectorInRow.Statement (.fromInteger value width) := by
  simp [SelectorInRow.Statement, Instr.selector, Instr.rowMask, Instr.rowMatch]

theorem SelectorInRow.resize (source : BitVector) (sw dw : Nat) : SelectorInRow.Statement (.resize source sw dw) := by
  simp [SelectorInRow.Statement, Instr.selector, Instr.rowMask, Instr.rowMatch]

theorem SelectorInRow.testBit (b : Byte) (k : Nat) : SelectorInRow.Statement (.testBit b k) := by
  simp [SelectorInRow.Statement, Instr.selector, Instr.rowMask, Instr.rowMatch]

theorem SelectorInRow.copyBits (b : Byte) (word : Word) (c h : Nat) :
    SelectorInRow.Statement (.copyBits b word c h) := by
  simp [SelectorInRow.Statement, Instr.selector, Instr.rowMask, Instr.rowMatch]

theorem SelectorInRow.packOne (o : Byte) (text : List Byte) (word : Word) :
    SelectorInRow.Statement (.packOne o text word) := by
  simp [SelectorInRow.Statement, Instr.selector, Instr.rowMask, Instr.rowMatch]

theorem SelectorInRow.packTwo (o : Byte) (text : List Byte) (word : Word) :
    SelectorInRow.Statement (.packTwo o text word) := by
  simp [SelectorInRow.Statement, Instr.selector, Instr.rowMask, Instr.rowMatch]

theorem SelectorInRow.packThree (o : Byte) (text : List Byte) (word : Word) :
    SelectorInRow.Statement (.packThree o text word) := by
  simp [SelectorInRow.Statement, Instr.selector, Instr.rowMask, Instr.rowMatch]

theorem SelectorInRow.packFour (o : Byte) (text : List Byte) (word : Word) :
    SelectorInRow.Statement (.packFour o text word) := by
  simp [SelectorInRow.Statement, Instr.selector, Instr.rowMask, Instr.rowMatch]

theorem SelectorInRow.packFive (o : Byte) (text : List Byte) (word : Word) :
    SelectorInRow.Statement (.packFive o text word) := by
  simp [SelectorInRow.Statement, Instr.selector, Instr.rowMask, Instr.rowMatch]

theorem SelectorInRow.packSix (o : Byte) (text : List Byte) (word : Word) :
    SelectorInRow.Statement (.packSix o text word) := by
  simp [SelectorInRow.Statement, Instr.selector, Instr.rowMask, Instr.rowMatch]

theorem SelectorInRow.packSeven (o : Byte) (text : List Byte) (word : Word) :
    SelectorInRow.Statement (.packSeven o text word) := by
  simp [SelectorInRow.Statement, Instr.selector, Instr.rowMask, Instr.rowMatch]

theorem SelectorInRow.packEight (o : Byte) (text : List Byte) (word : Word) :
    SelectorInRow.Statement (.packEight o text word) := by
  simp [SelectorInRow.Statement, Instr.selector, Instr.rowMask, Instr.rowMatch]

theorem SelectorInRow.reservedSeven : SelectorInRow.Statement .reservedSeven := by
  simp [SelectorInRow.Statement, Instr.selector, Instr.rowMask, Instr.rowMatch]

theorem SelectorInRow.reservedHigh (low : BitVec 3) : SelectorInRow.Statement (.reservedHigh low) := by
  show (((0b1#1 ++ low) ++ (0 : BitVec 3) : BitVec 7) &&& 0x40) = 0x40
  revert low
  decide

end Sys2Proof.Laws
end

