-- ==== Sys2Proof/Laws/Response.lean ====
section
/-! SUPPORT. Every response fits the output ports of 10_state.md R33, under a configuration in which the block operates. -/

namespace Sys2Proof.Machine

theorem paramsLegal_of_configLegal {c : Config} (h : configLegal c = true) :
    1 ≤ c.params.vmax ∧ c.params.vmax ≤ c.params.intW ∧ 1 ≤ c.params.wordW := by
  simp only [configLegal, paramsLegal, Bool.and_eq_true, decide_eq_true_eq] at h
  exact h.1

theorem intFits_iff {p : Params} {v : Int} :
    p.intFits v = true ↔ -(2 ^ (p.intW - 1) : Int) ≤ v ∧ v < 2 ^ (p.intW - 1) := by simp [Params.intFits]

theorem packResponse_fits (c : Config) (f : Format) (o : Byte) (w : Word) (x : Except Err DecodedFields) :
    responseFits c.params (packResponse c f o w x) = true := by
  cases x with
  | error => rfl
  | ok x => simp [packResponse, responseFits, resultFits, Params.wordFits]

theorem toUnsignedResponse_fits (c : Config) (bits : BitVector) (w : Nat) :
    responseFits c.params (toUnsignedResponse c bits w) = true := by
  rw [toUnsignedResponse]
  split
  · rfl
  split
  · rfl
  rename_i hle
  have hpos : 0 < 2 ^ (c.params.intW - 1) := by positivity
  zify [hpos] at hle hpos
  exact intFits_iff.mpr ⟨by omega, by omega⟩

theorem toSignedResponse_fits {c : Config} (h : configLegal c = true) (bits : BitVector) (w : Nat) :
    responseFits c.params (toSignedResponse c bits w) = true := by
  obtain ⟨_, hint, _⟩ := paramsLegal_of_configLegal h
  rw [toSignedResponse]
  split
  · rfl
  rename_i hw
  obtain ⟨h1, h2⟩ := widthOk_iff.mp (by simpa using hw)
  have hb := signedSum_bounds (bv := bits) h1
  have hle : (2 : Int) ^ (w - 1) ≤ 2 ^ (c.params.intW - 1) := by
    exact_mod_cast Nat.pow_le_pow_right (by norm_num) (by omega)
  rw [signedValue_eq_signedSum h2]
  exact intFits_iff.mpr ⟨by omega, by omega⟩

theorem fromIntegerResponse_fits (c : Config) (v : Int) (w : Nat) :
    responseFits c.params (fromIntegerResponse c v w) = true := by
  rw [fromIntegerResponse]
  split
  · rfl
  · simp [responseFits, resultFits, Params.vectorFits]

theorem resizeResponse_fits (c : Config) (bv : BitVector) (sw dw : Nat) :
    responseFits c.params (resizeResponse c bv sw dw) = true := by
  rw [resizeResponse]
  split
  · rfl
  split
  · rfl
  · simp [responseFits, resultFits, Params.vectorFits]

theorem testBitResponse_fits (p : Params) (b : Byte) (k : Nat) : responseFits p (testBitResponse b k) = true := by
  rw [testBitResponse]
  split <;> rfl

theorem copyBitsResponse_fits (c : Config) (b : Byte) (wd : Word) (n h : Nat) :
    responseFits c.params (copyBitsResponse c b wd n h) = true := by
  rw [copyBitsResponse]
  split
  · rfl
  split
  · rfl
  · simp [responseFits, resultFits, Params.wordFits]

/-- Every request's response fits the output ports. -/
theorem requestResponse_fits {c : Config} (h : configLegal c = true) (r : Request) :
    responseFits c.params (requestResponse c r) = true := by
  rw [requestResponse]
  split
  · rfl
  rename_i i _
  cases i
  case toUnsigned => exact toUnsignedResponse_fits c ..
  case toSigned => exact toSignedResponse_fits h ..
  case fromInteger => exact fromIntegerResponse_fits c ..
  case resize => exact resizeResponse_fits c ..
  case testBit => exact testBitResponse_fits c.params ..
  case copyBits => exact copyBitsResponse_fits c ..
  case reservedSeven => rfl
  case reservedHigh => rfl
  all_goals exact packResponse_fits c ..

end Sys2Proof.Machine
end

