-- ==== Sys2Proof/Laws/State.lean ====
section
/-! SUPPORT. What each update of the state does to each field. -/

namespace Sys2Proof.Machine

@[simp] theorem State.consume_config (s : State) : s.consume.config = s.config := rfl
@[simp] theorem State.consume_inputs (s : State) : s.consume.inputs = s.inputs.tail := rfl
@[simp] theorem State.consume_pipeline (s : State) : s.consume.pipeline = s.pipeline := rfl
@[simp] theorem State.consume_rsp (s : State) : s.consume.rsp = s.rsp := rfl

@[simp] theorem State.clock_config (s : State) (e : Option Response) : (s.clock e).config = s.config := rfl
@[simp] theorem State.clock_inputs (s : State) (e : Option Response) : (s.clock e).inputs = s.inputs := rfl
@[simp] theorem State.clock_pipeline (s : State) (e : Option Response) :
    (s.clock e).pipeline = (s.pipeline ++ [e]).tail := rfl
@[simp] theorem State.clock_rsp (s : State) (e : Option Response) :
    (s.clock e).rsp = (s.pipeline ++ [e]).headD none := rfl

@[simp] theorem State.hold_config (s : State) : s.hold.config = s.config := rfl
@[simp] theorem State.hold_inputs (s : State) : s.hold.inputs = s.inputs := rfl
@[simp] theorem State.hold_pipeline (s : State) : s.hold.pipeline = s.pipeline.map fun _ => none := rfl
@[simp] theorem State.hold_rsp (s : State) : s.hold.rsp = none := rfl

theorem State.idle_eq_clock (s : State) : s.idle = s.clock none := rfl
theorem State.respond_eq_clock (s : State) (r : Response) : s.respond r = s.clock (some r) := rfl
theorem State.raise_eq_respond (s : State) (e : Err) : s.raise e = s.respond (.failure e) := rfl

@[simp] theorem State.respond_config (s : State) (r : Response) : (s.respond r).config = s.config := rfl
@[simp] theorem State.respond_inputs (s : State) (r : Response) : (s.respond r).inputs = s.inputs := rfl
@[simp] theorem State.raise_config (s : State) (e : Err) : (s.raise e).config = s.config := rfl
@[simp] theorem State.raise_inputs (s : State) (e : Err) : (s.raise e).inputs = s.inputs := rfl
@[simp] theorem State.idle_config (s : State) : s.idle.config = s.config := rfl
@[simp] theorem State.idle_inputs (s : State) : s.idle.inputs = s.inputs := rfl

/-- A cycle keeps the number of pipeline stages. -/
@[simp] theorem State.clock_pipeline_length (s : State) (e : Option Response) :
    (s.clock e).pipeline.length = s.pipeline.length := by simp

/-- What leaves in a cycle was in flight or entered in it. -/
theorem State.clock_rsp_mem (s : State) (e : Option Response) : (s.clock e).rsp ∈ s.pipeline ++ [e] := by
  rw [State.clock_rsp]
  cases s.pipeline <;> simp

/-- What is in flight after a cycle was in flight or entered in it. -/
theorem State.mem_clock_pipeline {s : State} {e x : Option Response} (h : x ∈ (s.clock e).pipeline) :
    x ∈ s.pipeline ++ [e] := List.mem_of_mem_tail h

/-- Different responses lead to different states. -/
theorem State.respond_inj {s : State} {r r' : Response} : s.respond r = s.respond r' ↔ r = r' := by
  refine ⟨fun h => ?_, fun h => h ▸ rfl⟩
  have hp : (s.pipeline ++ [some r]).tail = (s.pipeline ++ [some r']).tail := congrArg State.pipeline h
  have hr : (s.pipeline ++ [some r]).headD none = (s.pipeline ++ [some r']).headD none := congrArg State.rsp h
  cases hs : s.pipeline with
  | nil => simpa [hs] using hr
  | cons a l => simpa [hs] using hp

end Sys2Proof.Machine
end

