-- ==== Sys2Proof/Laws/Step.lean ====
section
/-! SUPPORT. Everything a step can do, said once, and what it means for the fields of the state. -/

namespace Sys2Proof.Machine

/-- The two things a cycle of a legal configuration can be: held in reset, or clocked with at most one response
entering. -/
theorem step_legal {s : State} (h : configLegal s.config = true) :
    (fetchCycle s = .held ∧ step s = .next s.consume.hold) ∨
    (fetchCycle s = .idle ∧ step s = .next (s.consume.clock none)) ∨
    ∃ r, fetchCycle s = .request r ∧ step s = .next (s.consume.clock (some (requestResponse s.config r))) := by
  rw [step, if_neg (by simp [h])]
  cases hf : fetchCycle s with
  | idle => exact .inr (.inl ⟨rfl, rfl⟩)
  | held => exact .inl ⟨rfl, rfl⟩
  | request r =>
    refine .inr (.inr ⟨r, rfl, ?_⟩)
    dsimp only
    rw [requestResponse]
    cases hd : decodeRequest s.config r with
    | error e => rfl
    | ok i => cases i <;> rfl

/-- A step answers a next state only under a legal configuration. -/
theorem configLegal_of_step {s t : State} (h : step s = .next t) : configLegal s.config = true := by
  by_contra hc
  rw [step, if_pos (by simpa using hc)] at h
  cases h

/-- Everything a step that answers a next state can have done. -/
theorem step_cases {s t : State} (h : step s = .next t) :
    t = s.consume.hold ∨ t = s.consume.clock none ∨
      ∃ r, fetchCycle s = .request r ∧ t = s.consume.clock (some (requestResponse s.config r)) := by
  rcases step_legal (configLegal_of_step h) with ⟨_, h'⟩ | ⟨_, h'⟩ | ⟨r, hf, h'⟩ <;> rw [h] at h' <;>
    injection h' with h'
  · exact .inl h'
  · exact .inr (.inl h')
  · exact .inr (.inr ⟨r, hf, h'⟩)

theorem step_config {s t : State} (h : step s = .next t) : t.config = s.config := by
  obtain rfl | rfl | ⟨r, _, rfl⟩ := step_cases h <;> rfl

theorem step_inputs {s t : State} (h : step s = .next t) : t.inputs = s.inputs.tail := by
  obtain rfl | rfl | ⟨r, _, rfl⟩ := step_cases h <;> rfl

theorem step_pipeline_length {s t : State} (h : step s = .next t) : t.pipeline.length = s.pipeline.length := by
  obtain rfl | rfl | ⟨r, _, rfl⟩ := step_cases h <;> simp

/-- A cycle with no reset clocks in what its input, if there is one, is answered. -/
theorem step_of_no_reset {s : State} (h : configLegal s.config = true)
    (hr : s.config.latency = 0 ∨ ∀ x ∈ s.inputs, x.rstN = true) :
    step s = .next (s.consume.clock (s.inputs.head?.bind (cycleResponse s.config))) := by
  have hheld : ∀ x rest, s.inputs = x :: rest → ¬ (0 < s.config.latency ∧ x.rstN = false) := fun x rest hs hc => by
    rcases hr with h0 | hall
    · omega
    · rw [hall x (by simp [hs])] at hc
      exact absurd hc.2 (by decide)
  cases hs : s.inputs with
  | nil =>
    have hf : fetchCycle s = .idle := by rw [fetchCycle, hs]
    rcases step_legal h with ⟨hf', _⟩ | ⟨_, hst⟩ | ⟨r, hf', _⟩
    · rw [hf] at hf'; cases hf'
    · exact hst
    · rw [hf] at hf'; cases hf'
  | cons x rest =>
    have hf : fetchCycle s = if x.reqValid then .request x.req else .idle := by
      rw [fetchCycle, hs]
      exact if_neg (hheld x rest hs)
    simp only [List.head?_cons, Option.bind_some, cycleResponse]
    split at hf
    · rename_i hv
      rcases step_legal h with ⟨hf', _⟩ | ⟨hf', _⟩ | ⟨r, hf', hst⟩ <;> rw [hf] at hf' <;> cases hf'
      rw [if_pos hv]
      exact hst
    · rename_i hv
      rcases step_legal h with ⟨hf', _⟩ | ⟨_, hst⟩ | ⟨r, hf', _⟩
      · rw [hf] at hf'; cases hf'
      · rw [if_neg hv]
        exact hst
      · rw [hf] at hf'; cases hf'

/-! ## Runs -/

theorem run_zero (s : State) : Host.Core.run core 0 s = .next s := rfl

/-- In any machine a run is a step and the rest of the run. -/
theorem run_of_step (M : Host.Core) {n : Nat} {s t : M.State} (h : M.step s = .next t) : M.run (n + 1) s = M.run n t := by
  rw [Host.Core.run, h]

/-- In any machine a run that answers a next state took a first step. -/
theorem step_of_run (M : Host.Core) {n : Nat} {s u : M.State} (h : M.run (n + 1) s = .next u) :
    ∃ t, M.step s = .next t ∧ M.run n t = .next u := by
  rw [Host.Core.run] at h
  split at h
  · exact ⟨_, ‹_›, h⟩
  · cases h
  · cases h

theorem run_succ {n : Nat} {s t : State} (h : step s = .next t) :
    Host.Core.run core (n + 1) s = Host.Core.run core n t := run_of_step core h

theorem run_succ_inv {n : Nat} {s u : State} (h : Host.Core.run core (n + 1) s = .next u) :
    ∃ t : State, step s = .next t ∧ Host.Core.run core n t = .next u := step_of_run core h

end Sys2Proof.Machine
end

