-- ==== Sys2Proof/Tests/Slice0.lean ====
section
/-! SUPPORT. Tests on fixed values. Every expected value is a row of spec/95_test_vectors.md (sections 1 to 4) or of
spec/opcode_table.json, or the ill-formed term a check must refuse. TR and TL are the illustrative registry and layout of
95_test_vectors.md section 2. -/

namespace Sys2Proof.Tests

open Sys2Proof Sys2Proof.Machine

/-! ## Helpers -/

/-- A 64-element vector whose first elements are the digits given, the rest 0. -/
def vec (ds : List Nat) : BitVector := ds.map (· == 1) ++ List.replicate (64 - ds.length) false

/-- An 18-element word from its digits. -/
def wordOf (ds : List Nat) : Word := ds.map (· == 1)

def word0 : Word := List.replicate 18 false

/-- Bytes from their ASCII codes. -/
def str (cs : List Nat) : List Byte := cs.map (BitVec.ofNat 8)

/-- TR. -/
def trRegistry : Registry :=
  { fmt :=
      [(.three 0x41 0x41 0x41, .one), (.three 0x42 0x42 0x42, .two), (.three 0x4C 0x44 0x41, .three),
       (.three 0x44 0x44 0x44, .four), (.three 0x45 0x45 0x45, .five), (.three 0x46 0x46 0x46, .six),
       (.three 0x47 0x47 0x47, .seven), (.two 0x49 0x4E, .eight), (.three 0x48 0x48 0x48, .eight)]
    opc :=
      [(.three 0x41 0x41 0x41, 1), (.three 0x42 0x42 0x42, 2), (.three 0x4C 0x44 0x41, 3),
       (.three 0x44 0x44 0x44, 4), (.three 0x45 0x45 0x45, 5), (.three 0x46 0x46 0x46, 6),
       (.three 0x47 0x47 0x47, 7), (.two 0x49 0x4E, 17), (.three 0x48 0x48 0x48, 18)]
    flags := [] }

/-- TL. -/
def tlLayout : Layout :=
  { ls := { opcode := ⟨4, 5⟩, generalRegister := ⟨6, 2⟩, indexRegister := ⟨8, 2⟩, indirection := ⟨9, 1⟩,
            address := ⟨17, 8⟩ }
    arith2 := { opcode := ⟨4, 5⟩, registerX := ⟨6, 2⟩, registerY := ⟨8, 2⟩ }
    shift := { opcode := ⟨4, 5⟩, generalRegister := ⟨6, 2⟩, count := ⟨17, 4⟩, lr := ⟨8, 1⟩, al := ⟨7, 1⟩ }
    io := { opcode := ⟨4, 5⟩, generalRegister := ⟨6, 2⟩, devid := ⟨17, 5⟩ } }

/-- The default widths with TR and TL and the latency given. -/
def testConfig (latency : Nat) : Config :=
  { params := Params.default, latency := latency, registry := trRegistry, wordWriter := .reference tlLayout }

/-- A request presented with reset high. -/
def present (r : Request) : CycleInput := { rstN := true, reqValid := true, req := r }

/-- A block in operation with these cycles lined up and nothing in flight. -/
def blockWith (latency : Nat) (inputs : List CycleInput) : State :=
  { config := testConfig latency, inputs := inputs, pipeline := List.replicate latency none, rsp := none }

/-- The response the block presents to a request in the same cycle. -/
def answer (r : Request) : Option Response :=
  match step (blockWith 0 [present r]) with
  | .next t => t.rsp
  | .fault _ => none
  | .refused _ => none

/-- The request ports, all 0. -/
def ports : Request := Request.zero Params.default

/-- A PACK request of a line. -/
def packRequest (cs : List Nat) (word : Word) : Request :=
  { ports with op := 6, line := str cs ++ List.replicate (64 - cs.length) 0, lineLen := cs.length, wordA := word }

/-- A PACK answer's fields and word, if it is a success. -/
def packed (cs : List Nat) (word : Word) : Option (Format × Routine × Byte × DecodedFields × Nat) :=
  match answer (packRequest cs word) with
  | some (.success (.pack p)) => some (p.format, p.routine, p.opcode, p.fields, unsignedValue p.word 18)
  | _ => none

def f0 : DecodedFields := DecodedFields.zero

/-! ## Converter (95_test_vectors.md 3.1 to 3.6) -/

theorem test_to_unsigned_ignores_elements_above_width :
    answer { ports with op := 0, bvA := (vec [1, 0, 1, 0]).take 4 ++ List.replicate 60 true, wA := 4 }
      = some (.success (.int 10)) := by decide

theorem test_to_unsigned_overflows_at_64 :
    answer { ports with op := 0, bvA := vec [1], wA := 64 } = some (.failure .widthOverflow) := by decide

theorem test_to_signed_most_negative_64 :
    answer { ports with op := 1, bvA := vec [1], wA := 64 } = some (.success (.int (-9223372036854775808))) := by decide

theorem test_to_signed_minus_5 :
    answer { ports with op := 1, bvA := vec [1, 0, 1, 1], wA := 4 } = some (.success (.int (-5))) := by decide

theorem test_from_integer_truncates_minus_300 :
    answer { ports with op := 2, intA := -300, wA := 8 }
      = some (.success (.vector (vec [1, 1, 0, 1, 0, 1, 0, 0]))) := by decide

theorem test_from_integer_most_negative_64 :
    answer { ports with op := 2, intA := -9223372036854775808, wA := 64 } = some (.success (.vector (vec [1]))) := by
  decide

theorem test_resize_extends_with_zeros :
    answer { ports with op := 3, bvA := vec [1, 0, 1, 1], wA := 4, wB := 8 }
      = some (.success (.vector (vec [0, 0, 0, 0, 1, 0, 1, 1]))) := by decide

theorem test_resize_keeps_low_elements :
    answer { ports with op := 3, bvA := vec [1, 0, 1, 1, 0, 1, 1, 0], wA := 8, wB := 4 }
      = some (.success (.vector (vec [0, 1, 1, 0]))) := by decide

theorem test_test_bit_7 : answer { ports with op := 4, byteA := 0x80, idx := 7 } = some (.success (.bit true)) := by
  decide

theorem test_test_bit_index_8 :
    answer { ports with op := 4, byteA := 0xFF, idx := 8 } = some (.failure .invalidArgument) := by decide

theorem test_copy_bits_clears :
    answer { ports with op := 5, wordA := List.replicate 18 true, byteA := 0, cnt := 4, idx := 9 }
      = some (.success (.word (wordOf [1, 1, 1, 1, 1, 1, 0, 0, 0, 0, 1, 1, 1, 1, 1, 1, 1, 1]))) := by decide

theorem test_copy_bits_below_word :
    answer { ports with op := 5, cnt := 4, idx := 2 } = some (.failure .invalidArgument) := by decide

/-! ## Packer (95_test_vectors.md 3.9) -/

/-- P4. -/
theorem test_pack_one : packed [65, 65, 65, 32, 51, 44, 50, 44, 51, 49, 44, 49] word0 =
    some (.one, .ls, 1, { f0 with generalRegister := 3, indexRegister := 2, address := 31, indirection := 1 }, 15647) := by
  decide

/-- P20: token 3 present and empty. -/
theorem test_pack_one_empty_indirection : answer (packRequest [65, 65, 65, 32, 51, 44, 50, 44, 51, 49, 44] word0) =
    some (.failure .malformedOperand) := by decide

/-- P5: indirection absent. -/
theorem test_pack_two : packed [66, 66, 66, 32, 50, 44, 49, 55] word0 =
    some (.two, .ls, 2, { f0 with indexRegister := 2, address := 17 }, 17425) := by decide

/-- P1. -/
theorem test_pack_three : packed [76, 68, 65, 44, 49, 44, 50, 48, 48] word0 =
    some (.three, .ls, 3, { f0 with generalRegister := 1, address := 200 }, 26824) := by decide

/-- P23: two characters at the fixed offset. -/
theorem test_pack_three_two_digits : answer (packRequest [76, 68, 65, 44, 49, 50, 44, 50, 48, 48] word0) =
    some (.failure .malformedOperand) := by decide

/-- P8. -/
theorem test_pack_four : packed [68, 68, 68, 32, 50, 53, 53] word0 =
    some (.four, .ls, 4, { f0 with address := 255 }, 33023) := by decide

/-- P28: FOUR reads the comma as part of its number. -/
theorem test_pack_four_comma : answer (packRequest [68, 68, 68, 32, 49, 44, 50] word0) =
    some (.failure .malformedOperand) := by decide

/-- P18: elements no placement covers keep the starting word. -/
theorem test_pack_five : packed [69, 69, 69, 32, 50] (List.replicate 18 true) =
    some (.five, .arith2, 5, { f0 with registerX := 2 }, 45567) := by decide

/-- P11. -/
theorem test_pack_six : packed [70, 70, 70, 32, 49, 44, 51] word0 =
    some (.six, .arith2, 6, { f0 with registerX := 1, registerY := 3 }, 52736) := by decide

/-- P13: lr 3 is placed in one bit. -/
theorem test_pack_seven : packed [71, 71, 71, 32, 50, 44, 53, 44, 51, 44, 49] word0 =
    some (.seven, .shift, 7, { f0 with generalRegister := 2, count := 5, lr := 3, al := 1 }, 62981) := by decide

/-- P27: al is not optional. -/
theorem test_pack_seven_missing_al : answer (packRequest [71, 71, 71, 32, 50, 44, 53, 44, 49] word0) =
    some (.failure .malformedOperand) := by decide

/-- P2. -/
theorem test_pack_eight_two_character_key : packed [73, 78, 32, 49, 44, 51] word0 =
    some (.eight, .io, 17, { f0 with generalRegister := 1, devid := 3 }, 141315) := by decide

/-- P31: "INC 1" has the key "IN". -/
theorem test_pack_eight_inc : answer (packRequest [73, 78, 67, 32, 49] word0) =
    some (.failure .malformedOperand) := by decide

/-- P33, P34, P36. -/
theorem test_pack_unselected :
    answer (packRequest [108, 100, 97, 44, 49, 44, 50, 48, 48] word0) = some (.failure .unknownOpcode) ∧
    answer (packRequest [76, 68] word0) = some (.failure .unknownOpcode) ∧
    answer { packRequest [] word0 with lineLen := 65 } = some (.failure .invalidArgument) := by decide

theorem test_reserved : answer { ports with op := 7 } = some (.failure .invalidOp) ∧
    answer { ports with op := 15 } = some (.failure .invalidOp) := by decide

/-! ## Timing (R190, R195): a request accepted in cycle 0 of a block with LATENCY 2 is answered in cycle 2 -/

def afterCycles (n : Nat) (s : State) : Option (Option Response) :=
  match Host.Core.run core n s with
  | .next t => some t.rsp
  | .fault _ => none
  | .refused _ => none

def twoStage (rstN : Bool) : State :=
  blockWith 2 [present { ports with op := 4, byteA := 1 }, { present ports with rstN := rstN }]

theorem test_latency_two : afterCycles 2 (twoStage true) = some none ∧
    afterCycles 3 (twoStage true) = some (some (.success (.bit true))) := by decide

theorem test_reset_drops_in_flight : afterCycles 3 (twoStage false) = some none := by decide

/-! ## Decoding: selectors written out from spec/opcode_table.json -/

theorem test_decode_to_unsigned : decodeTableWord 8 0b0000000 = some (.toUnsigned (vec []) 0) := by decide
theorem test_decode_unused_fmt : decodeTableWord 8 0b0000111 = some (.toUnsigned (vec []) 0) := by decide
theorem test_decode_to_signed : decodeTableWord 8 0b0001000 = some (.toSigned (vec []) 0) := by decide
theorem test_decode_from_integer : decodeTableWord 8 0b0010000 = some (.fromInteger 0 0) := by decide
theorem test_decode_resize : decodeTableWord 8 0b0011000 = some (.resize (vec []) 0 0) := by decide
theorem test_decode_test_bit : decodeTableWord 8 0b0100000 = some (.testBit 0 0) := by decide
theorem test_decode_copy_bits : decodeTableWord 8 0b0101000 = some (.copyBits 0 word0 0 0) := by decide
theorem test_decode_pack_one : decodeTableWord 8 0b0110000 = some (.packOne 0 [0, 0, 0] word0) := by decide
theorem test_decode_pack_two : decodeTableWord 8 0b0110001 = some (.packTwo 0 [0, 0, 0] word0) := by decide
theorem test_decode_pack_three : decodeTableWord 8 0b0110010 = some (.packThree 0 [0, 0, 0] word0) := by decide
theorem test_decode_pack_four : decodeTableWord 8 0b0110011 = some (.packFour 0 [0, 0, 0] word0) := by decide
theorem test_decode_pack_five : decodeTableWord 8 0b0110100 = some (.packFive 0 [0, 0, 0] word0) := by decide
theorem test_decode_pack_six : decodeTableWord 8 0b0110101 = some (.packSix 0 [0, 0, 0] word0) := by decide
theorem test_decode_pack_seven : decodeTableWord 8 0b0110110 = some (.packSeven 0 [0, 0, 0] word0) := by decide
theorem test_decode_pack_eight : decodeTableWord 8 0b0110111 = some (.packEight 0 [0, 0, 0] word0) := by decide
theorem test_decode_reserved : decodeTableWord 8 0b0111000 = some .reservedSeven ∧
    decodeTableWord 8 0b1000000 = some (.reservedHigh 0) ∧ decodeTableWord 8 0b1111000 = some (.reservedHigh 7) ∧
    decodeTableWord 8 0b10000000 = none := by decide

/-- A row placed at reset is what the next step decodes, one selector of every row. -/
theorem test_fetch_decodes_selector :
    ∀ w ∈ [0x00, 0x08, 0x10, 0x18, 0x20, 0x28, 0x30, 0x31, 0x32, 0x33, 0x34, 0x35, 0x36, 0x37, 0x38, 0x40, 0x78],
      (match decodeRequest (State.reset.withFetchWord 8 w).config (selectorRequest Params.default (BitVec.ofNat 7 w)) with
        | .ok i => some i
        | .error _ => none) = decodeTableWord 8 w := by decide

/-- A row placed at reset is what the next step runs. -/
theorem test_fetch_runs_selector : step (State.reset.withFetchWord 8 0x32) =
    exec (.packThree 0 [0, 0, 0] word0) { State.reset.withFetchWord 8 0x32 with inputs := [] } := by rfl

/-- A failure drives its code and every data output to 0 (R33, R71). -/
theorem test_failure_wires : (responseWires Params.default (.failure .malformedOperand)) =
    { err := 2, intY := 0, bvY := vec [], bitY := false, wordY := word0, fmtY := 0, routineY := 0, opcodeY := 0,
      fieldsY := f0 } := by decide

/-! ## Well-formedness: each check refuses an ill-formed term -/

theorem test_wf_accepts : Instr.wf Params.default (.copyBits 0xFF word0 15 127) = true ∧
    ports.wf Params.default = true := by decide

/-- R32: 7 bits each under the default parameters; `ceil(log2(LINE_MAX + 1))` is 0 for LINE_MAX = 0 (log 19). -/
theorem test_port_bits : Params.default.widthBits = 7 ∧ Params.default.lineLenBits = 7 ∧ Params.default.idxBits = 7 ∧
    { Params.default with lineMax := 0 }.lineLenBits = 0 ∧ { Params.default with vmax := 32 }.widthBits = 6 := by decide

theorem test_wf_vector : Instr.wf Params.default (.toUnsigned [true] 4) = false ∧
    Request.wf Params.default { ports with bvA := [true] } = false := by decide

theorem test_wf_width : Instr.wf Params.default (.toSigned (vec []) 128) = false ∧
    Instr.wf Params.default (.resize (vec []) 127 128) = false ∧
    Request.wf Params.default { ports with wA := 128 } = false ∧
    Request.wf Params.default { ports with wB := 128 } = false := by decide

theorem test_wf_integer : Instr.wf Params.default (.fromInteger 9223372036854775808 64) = false ∧
    Request.wf Params.default { ports with intA := -9223372036854775809 } = false := by decide

theorem test_wf_index : Instr.wf Params.default (.testBit 0 128) = false ∧
    Request.wf Params.default { ports with idx := 128 } = false := by decide

theorem test_wf_word : Instr.wf Params.default (.copyBits 0 [true] 0 0) = false ∧
    Instr.wf Params.default (.packEight 0 [] [true]) = false ∧
    Request.wf Params.default { ports with wordA := [true] } = false := by decide

theorem test_wf_count : Instr.wf Params.default (.copyBits 0 word0 16 0) = false := by decide

theorem test_wf_text : Instr.wf Params.default (.packOne 0 (List.replicate 65 0x30) word0) = false := by decide

theorem test_wf_line : Request.wf Params.default { ports with line := [] } = false ∧
    Request.wf Params.default { ports with lineLen := 128 } = false := by decide

/-! ## Witnesses: for each statement, a state and operands that meet its hypotheses, one for each clause -/

/-- A block with LATENCY 0, TR and TL. -/
def base : State := blockWith 0 []

theorem blockWith_inv (latency : Nat) (inputs : List CycleInput) (h : ∀ x ∈ inputs, x.req.wf Params.default = true) :
    (blockWith latency inputs).Inv where
  legal := rfl
  stages := List.length_replicate
  inputsFit := h
  inFlightFit := fun r hr => by simp [blockWith] at hr
  presentedFits := fun r hr => by simp [blockWith] at hr

/-- A block with a response in its oldest stage of two. -/
def inFlight (inputs : List CycleInput) : State :=
  { blockWith 2 inputs with pipeline := [some (.success (.bit true)), none] }

theorem inFlight_inv (inputs : List CycleInput) (h : ∀ x ∈ inputs, x.req.wf Params.default = true) :
    (inFlight inputs).Inv where
  legal := rfl
  stages := rfl
  inputsFit := h
  inFlightFit := fun r hr => by
    have : r = .success (.bit true) := by simpa [inFlight] using hr
    rw [this]; rfl
  presentedFits := fun r hr => by simp [inFlight, blockWith] at hr

theorem witness_ToUnsignedAnswersWeightedSum :
    ports.op = 0x0#4 ∧ base.config.params = Params.default ∧
    (0 < 1 ∨ base.config.params.vmax < 0) ∧ (65 < 1 ∨ base.config.params.vmax < 65) ∧
    (1 ≤ 64 ∧ 64 ≤ base.config.params.vmax ∧ unsignedSum (vec [0, 1]) 64 ≤ 2 ^ (base.config.params.intW - 1) - 1) ∧
    2 ^ (base.config.params.intW - 1) - 1 < unsignedSum (vec [1]) 64 := by
  simp only [← unsignedValue_eq_sum]
  decide

theorem witness_ToSignedAnswersByComplement :
    { ports with op := 1 }.op = 0x1#4 ∧ (0 < 1 ∨ base.config.params.vmax < 0) ∧
    (65 < 1 ∨ base.config.params.vmax < 65) ∧ 1 ≤ 64 ∧ 64 ≤ base.config.params.vmax ∧
    elemAt (vec [0, 1]) 0 = false ∧ elemAt (vec [1]) 0 = true := by decide

theorem witness_ToSignedIsTwosComplementValue : 1 ≤ 64 ∧ 64 ≤ base.config.params.vmax := by decide

theorem witness_FromIntegerAnswersBits :
    { ports with op := 2 }.op = 0x2#4 ∧ (0 < 1 ∨ base.config.params.vmax < 0) ∧
    (65 < 1 ∨ base.config.params.vmax < 65) ∧ 1 ≤ 64 ∧ 64 ≤ base.config.params.vmax ∧ 63 < 64 ∧ 64 ≤ 64 := by decide

theorem witness_FromIntegerIsModulo : 1 ≤ 1 ∧ 1 ≤ base.config.params.vmax ∧ 0 < 1 := by decide

theorem witness_ResizeAnswersAlignedElements :
    { ports with op := 3 }.op = 0x3#4 ∧
    (∀ x ∈ [(0, 1), (65, 1), (1, 0), (1, 65)],
      x.1 < 1 ∨ base.config.params.vmax < x.1 ∨ x.2 < 1 ∨ base.config.params.vmax < x.2) ∧
    1 ≤ 64 ∧ 64 ≤ base.config.params.vmax ∧ 1 ≤ base.config.params.vmax ∧ 1 ≤ 64 ∧ 1 < 64 := by decide

theorem witness_ResizeKeepsValueModulo :
    1 ≤ 1 ∧ 1 ≤ base.config.params.vmax ∧ 1 ≤ 64 ∧ 64 ≤ base.config.params.vmax := by decide

theorem witness_TestBitAnswersBitOfByte : { ports with op := 4 }.op = 0x4#4 ∧ 7 < 8 ∧ 7 ≤ 7 := by decide

theorem witness_CopyBitsAnswersField :
    { ports with op := 5 }.op = 0x5#4 ∧ 8 < 9 ∧
    (∀ h ∈ [18, 6], 8 ≤ 8 ∧ 0 < 8 ∧ (base.config.params.wordW ≤ h ∨ h + 1 < 8)) ∧
    word0.length = base.config.params.wordW ∧
    (∀ h ∈ [7, 17], 8 ≤ 8 ∧ 0 < 8 ∧ h < base.config.params.wordW ∧ 8 ≤ h + 1) ∧ (0 + 8 ≤ 17 ∨ 17 < 0) := by decide

theorem witness_CopyBitsChangesNumber :
    8 ≤ 8 ∧ 0 < 8 ∧ 7 < base.config.params.wordW ∧ 8 ≤ 7 + 1 ∧ word0.length = base.config.params.wordW := by decide

theorem witness_SignedResizeByTwoRequests :
    1 ≤ 1 ∧ 1 ≤ base.config.params.vmax ∧ 1 ≤ 64 ∧ 64 ≤ base.config.params.vmax ∧ 1 < 64 := by decide

theorem witness_UnsignedResizeByTwoRequests : 1 ≤ 64 ∧ 64 ≤ base.config.params.vmax ∧
    exec (.toUnsigned (vec [1]) 1) base = .next (base.respond (.success (.int 1))) := ⟨by decide, by decide, rfl⟩

theorem witness_SignedRoundTrip : 1 ≤ 64 ∧ 64 ≤ base.config.params.vmax ∧
    -(2 ^ (64 - 1) : Int) ≤ -9223372036854775808 ∧ -9223372036854775808 < (2 ^ (64 - 1) : Int) := by decide

theorem witness_UnsignedRoundTrip : 1 ≤ 64 ∧ 64 ≤ base.config.params.vmax ∧ (0 : Int) ≤ 9223372036854775807 ∧
    (9223372036854775807 : Int) < 2 ^ 64 ∧ (9223372036854775807 : Int) < 2 ^ (base.config.params.intW - 1) := by decide

theorem witness_MostNegativeRoundTrip : 1 ≤ 64 ∧ 64 ≤ base.config.params.vmax ∧ elemAt (vec [1]) 0 = true ∧
    ∀ i, 1 ≤ i → i < 64 → elemAt (vec [1]) i = false :=
  ⟨by decide, by decide, by decide, fun i h1 h2 => by
    have h : ∀ i : Fin 64, 1 ≤ i.val → elemAt (vec [1]) i.val = false := by decide
    exact h ⟨i, h2⟩ h1⟩

theorem witness_ElementsAboveWidthIgnored : vec [1] ≠ vec [1, 1] ∧ ∀ i, i < 1 → elemAt (vec [1]) i = elemAt (vec [1, 1]) i := by
  decide

theorem witness_TokensAreCommaPieces : str [51] ∈ splitCommas (str [49, 44, 51]) := by decide

theorem numericToken_255 : numericToken (str [50, 53, 53]) := by
  unfold numericToken
  decide

theorem not_numericToken_256 : ¬ numericToken (str [50, 53, 54]) := by
  unfold numericToken
  decide

theorem witness_NumericTokenValue :
    numericToken (str [50, 53, 53]) ∧ ¬ numericToken (str [50, 53, 54]) ∧ str [50] ≠ [] :=
  ⟨numericToken_255, not_numericToken_256, by decide⟩

theorem witness_FixedFieldIsLoneDigit : parseFixed (str [68, 68, 68, 32, 57]) 4 = .ok 9 ∧
    keyLength (str [68, 68, 68, 32, 57]) + 1 = 4 ∧
    parseFixed (str [68, 68, 68, 32]) 4 = .error .malformedOperand := by decide

theorem witness_OptionalAndRequiredTokens : (tokens (str [68, 68, 68, 32, 57])).length ≤ 1 ∧
    (tokens (str [68, 68, 68, 32, 57]))[0]? = some (str [57]) ∧
    (tokens (str [68, 68, 68, 32, 57, 44]))[1]? = some (str []) ∧ ¬ numericToken (str []) :=
  ⟨by decide, by decide, by decide, fun h => h.1 rfl⟩

theorem witness_KeyOfLine : ¬ (0x49#8 = 0x49#8 ∧ 0x4D#8 = 0x4E#8) ∧ ¬ (0x4A#8 = 0x49#8 ∧ 0x4E#8 = 0x4E#8) := by decide

/-- "LDA,1,200". -/
def lda : Request := packRequest [76, 68, 65, 44, 49, 44, 50, 48, 48] word0

theorem witness_PackSelectsByRegistry :
    (∀ r ∈ [{ lda with lineLen := 65 }, packRequest [76, 68] word0, packRequest [76, 68, 66] word0, lda],
      configLegal (blockWith 0 [present r]).config = true ∧ fetchCycle (blockWith 0 [present r]) = .request r ∧
      r.op = 0x6#4) ∧
    base.config.params.lineMax < 65 ∧
    (2 ≤ base.config.params.lineMax ∧ ((packRequest [76, 68] word0).line.take 2).length <
      keyLength ((packRequest [76, 68] word0).line.take 2)) ∧
    (keyOf ((packRequest [76, 68, 66] word0).line.take 3) = some (.three 76 68 66) ∧
      base.config.registry.fmt.lookup (.three 76 68 66) = none) ∧
    (64 ≤ base.config.params.lineMax ∧ keyOf (lda.line.take 64) = some (.three 76 68 65) ∧
      base.config.registry.fmt.lookup (.three 76 68 65) = some .three ∧
      base.config.registry.opc.lookup (.three 76 68 65) = some 3) := by decide

theorem witness_DeadEntriesUnread :
    let g : Registry := { trRegistry with fmt := (.two 0x4C 0x44, .one) :: (.three 0x49 0x4E 0x43, .two) :: trRegistry.fmt }
    g ≠ trRegistry ∧
    ∀ k, k = .two 0x49#8 0x4E#8 ∨ (∃ a b d, k = .three a b d ∧ ¬ (a = 0x49#8 ∧ b = 0x4E#8)) →
      g.fmt.lookup k = trRegistry.fmt.lookup k ∧ g.opc.lookup k = trRegistry.opc.lookup k := by
  refine ⟨by decide, fun k hk => ⟨?_, rfl⟩⟩
  rcases hk with rfl | ⟨a, b, d, rfl, h⟩
  · rfl
  · have h2 : (Key.three a b d == Key.two 0x4C 0x44) = false := by simp
    have h3 : (Key.three a b d == Key.three 0x49 0x4E 0x43) = false := by
      simp only [beq_eq_false_iff_ne, ne_eq, Key.three.injEq, not_and]
      exact fun ha hb _ => h ⟨ha, hb⟩
    simp only [List.lookup_cons, h2, h3]

/-- The line gives its key this format and opcode in TR. -/
def selects (cs : List Nat) (f : Format) (o : Byte) : Bool :=
  decide ((packRequest cs word0).op = 0x6#4 ∧ selectPack base.config (packRequest cs word0) = .ok (f, o))

theorem witness_PackOneAnswers : selects [65, 65, 65, 32, 57, 44, 50] .one 1 = true ∧
    parseFixed (str [65, 65, 65, 32, 57, 44, 50, 44, 51]) 4 = .ok 9 ∧
    parseTok (str [65, 65, 65, 32, 57, 44, 50, 44, 51]) 1 = .ok 2 ∧
    parseTok (str [65, 65, 65, 32, 57, 44, 50, 44, 51]) 2 = .ok 3 ∧
    optTok (str [65, 65, 65, 32, 57, 44, 50, 44, 51]) 3 = .ok 0 ∧
    parseFixed (str [65, 65, 65, 32]) 4 = .error .malformedOperand := by decide

theorem witness_PackTwoAnswers : selects [66, 66, 66, 32, 50, 44, 49] .two 2 = true ∧
    parseFixed (str [66, 66, 66, 32, 50, 44, 49, 44, 49]) 4 = .ok 2 ∧
    parseTok (str [66, 66, 66, 32, 50, 44, 49, 44, 49]) 1 = .ok 1 ∧
    optTok (str [66, 66, 66, 32, 50, 44, 49, 44, 49]) 2 = .ok 1 ∧
    optTok (str [66, 66, 66, 32, 50, 44, 49, 44]) 2 = .error .malformedOperand := by decide

theorem witness_PackThreeAnswers : selects [76, 68, 65, 44, 49, 44, 50] .three 3 = true ∧
    parseFixed (str [76, 68, 65, 44, 49, 44, 50, 53, 53]) 4 = .ok 1 ∧
    parseTok (str [76, 68, 65, 44, 49, 44, 50, 53, 53]) 1 = .ok 255 ∧
    parseTok (str [76, 68, 65, 44, 49]) 1 = .error .malformedOperand := by decide

theorem witness_PackFourAnswers : selects [68, 68, 68, 32, 48] .four 4 = true ∧
    parseDec ((str [68, 68, 68, 32, 50, 53, 53]).drop 4) = .ok 255 ∧
    parseDec ((str [68, 68, 68, 32]).drop 4) = .error .malformedOperand := by decide

theorem witness_PackFiveAnswers : selects [69, 69, 69, 32, 48] .five 5 = true ∧
    parseFixed (str [69, 69, 69, 32, 48]) 4 = .ok 0 ∧
    parseFixed (str [69, 69, 69, 32, 48, 48]) 4 = .error .malformedOperand := by decide

theorem witness_PackSixAnswers : selects [70, 70, 70, 32, 48, 44, 48] .six 6 = true ∧
    parseFixed (str [70, 70, 70, 32, 48, 44, 48]) 4 = .ok 0 ∧ parseTok (str [70, 70, 70, 32, 48, 44, 48]) 1 = .ok 0 ∧
    parseTok (str [70, 70, 70, 32, 48, 44]) 1 = .error .malformedOperand := by decide

theorem witness_PackSevenAnswers : selects [71, 71, 71, 32, 50, 44, 53] .seven 7 = true ∧
    parseFixed (str [71, 71, 71, 32, 50, 44, 53, 44, 49, 44, 48]) 4 = .ok 2 ∧
    parseTok (str [71, 71, 71, 32, 50, 44, 53, 44, 49, 44, 48]) 1 = .ok 5 ∧
    parseTok (str [71, 71, 71, 32, 50, 44, 53, 44, 49, 44, 48]) 2 = .ok 1 ∧
    parseTok (str [71, 71, 71, 32, 50, 44, 53, 44, 49, 44, 48]) 3 = .ok 0 ∧
    parseTok (str [71, 71, 71, 32, 50, 44, 53, 44, 49]) 3 = .error .malformedOperand := by decide

theorem witness_PackEightAnswers : selects [73, 78, 32, 49, 44, 51] .eight 17 = true ∧
    (∀ t ∈ [str [73, 78, 32, 49, 44, 51], str [72, 72, 72, 32, 49, 44, 51]],
      parseFixed t (keyLength t + 1) = .ok 1 ∧ parseTok t 1 = .ok 3) ∧
    parseFixed (str [73, 78, 67, 32, 49]) (keyLength (str [73, 78, 67, 32, 49]) + 1) = .error .malformedOperand := by
  decide

theorem witness_GrammarOfOneTokenFormats :
    keyLength (str [72, 72, 72, 32, 49, 44, 51]) = 3 ∧ keyLength (str [73, 78, 32, 49, 44, 51]) = 2 := by decide

theorem witness_GrammarOfManyTokenFormats : keyLength (str [65, 65, 65, 32, 51, 44, 50, 44, 51, 49]) = 3 := by decide

theorem witness_GrammarOfTokenlessFormats : keyLength (str [68, 68, 68, 32, 50, 53, 53]) = 3 := by decide

theorem witness_ScenarioOneForEveryLayout :
    lda.op = 0x6#4 ∧ lda.lineLen = 9 ∧ 9 ≤ base.config.params.lineMax ∧
    lda.line.take 9 = [0x4C#8, 0x44#8, 0x41#8, 0x2C#8, 0x31#8, 0x2C#8, 0x32#8, 0x30#8, 0x30#8] ∧
    base.config.registry.fmt.lookup (.three 0x4C#8 0x44#8 0x41#8) = some .three ∧
    base.config.registry.opc.lookup (.three 0x4C#8 0x44#8 0x41#8) = some 3 ∧
    base.config.wordWriter = .reference tlLayout ∧ configLegal base.config = true ∧ 8 ≤ tlLayout.ls.address.c ∧
    4 < tlLayout.ls.opcode.c := by decide

theorem witness_ReferenceWriterIsCopyBits :
    base.config.wordWriter = .reference tlLayout ∧ configLegal base.config = true ∧
    word0.length = base.config.params.wordW ∧ (200, tlLayout.ls.address) ∈ placedFields tlLayout 3 (.ls 1 0 0 200) ∧
    (placedFields tlLayout 5 (.arith2 2 0)).reverse.Perm (placedFields tlLayout 5 (.arith2 2 0)) ∧
    ∀ bp ∈ placedFields tlLayout 5 (.arith2 2 0), ¬ (9 ≤ bp.2.hi ∧ bp.2.hi < 9 + bp.2.c) :=
  ⟨rfl, rfl, rfl, by decide, List.reverse_perm _, by decide⟩

theorem witness_ReferenceWordHoldsFields :
    base.config.wordWriter = .reference tlLayout ∧ configLegal base.config = true ∧
    word0.length = base.config.params.wordW ∧ (200, tlLayout.ls.address) ∈ placedFields tlLayout 3 (.ls 1 0 0 200) ∧
    7 < tlLayout.ls.address.c := by decide

theorem witness_ReferenceWordNumber :
    base.config.wordWriter = .reference tlLayout ∧ configLegal base.config = true ∧
    word0.length = base.config.params.wordW ∧ ∀ k, elemAt word0 k = false :=
  ⟨rfl, rfl, rfl, fun k => by
    by_cases h : k < 18
    · exact (by decide : ∀ i : Fin 18, elemAt word0 i.val = false) ⟨k, h⟩
    · exact elemAt_of_length_le (by simp only [word0, List.length_replicate]; omega)⟩

theorem witness_ReservedAnswersInvalidOp : { ports with op := 7 }.op = 0x7#4 ∧
    8 ≤ { ports with op := 8 }.op.toNat ∧ 8 ≤ { ports with op := 15 }.op.toNat := by decide

theorem witness_ErrorsOfEachOperation :
    requestResponse base.config { ports with op := 7 } = .failure .invalidOp ∧
    requestResponse base.config { ports with op := 6 } = .failure .unknownOpcode ∧
    requestResponse base.config (packRequest [73, 78, 67, 32, 49] word0) = .failure .malformedOperand ∧
    requestResponse base.config { ports with bvA := vec [1], wA := 64 } = .failure .widthOverflow ∧
    requestResponse base.config { ports with op := 4, idx := 8 } = .failure .invalidArgument := by decide

theorem witness_ExecChangesOnlyPipelineAndOutput :
    base.pipeline = [] ∧ (inFlight []).pipeline = some (.success (.bit true)) :: [none] ∧
    (∃ t, exec .reservedSeven base = .next t) ∧ ∃ t, exec .reservedSeven (inFlight []) = .next t :=
  ⟨rfl, rfl, ⟨_, rfl⟩, _, rfl⟩

theorem witness_StepRunsDecodedInstruction :
    ∀ n ∈ [0, 2], configLegal (blockWith n [present lda]).config = true ∧
      (blockWith n [present lda]).inputs = [present lda] ∧ (present lda).reqValid = true ∧ (present lda).rstN = true ∧
      decodeRequest (blockWith n [present lda]).config lda = .ok (.packThree 3 lda.text word0) := by decide

theorem witness_ResetDropsAndClears :
    let x : CycleInput := { present lda with rstN := false }
    configLegal (inFlight [x]).config = true ∧ (inFlight [x]).inputs = [x] ∧ 0 < (inFlight [x]).config.latency ∧
      x.rstN = false := by decide

theorem witness_CombinationalWhenLatencyZero :
    (blockWith 0 [present lda]).Inv ∧ (blockWith 0 [present lda]).config.latency = 0 ∧
    (blockWith 0 [present lda]).inputs = [present lda] :=
  ⟨blockWith_inv 0 _ (by decide), rfl, rfl⟩

/-- TL with another placement for the LS opcode. -/
def layoutWith (p : Placement) : Layout := { tlLayout with ls := { tlLayout.ls with opcode := p } }

theorem witness_IllegalLayoutRefused :
    (∀ p ∈ [(⟨8, 9⟩ : Placement), ⟨3, 5⟩, ⟨18, 1⟩],
      { base with config := { base.config with wordWriter := .reference (layoutWith p) } }.config.wordWriter =
        .reference (layoutWith p) ∧ p ∈ lsPlacements (layoutWith p).ls ∧
      (8 < p.c ∨ (0 < p.c ∧ (p.hi + 1 < p.c ∨ base.config.params.wordW ≤ p.hi)))) ∧
    ((lsPlacements (layoutWith ⟨5, 5⟩).ls)[0]? = some ⟨5, 5⟩ ∧
      (lsPlacements (layoutWith ⟨5, 5⟩).ls)[1]? = some ⟨6, 2⟩ ∧ 0 < 1 ∧ 5 ≤ 5 ∧ 5 < 5 + 5 ∧ 5 ≤ 6 ∧ 6 < 5 + 2) := by decide

theorem witness_ConfigurationNeverChanges : ∃ t, Host.Core.run core 3 (inFlight [present lda]) = .next t := ⟨_, rfl⟩

theorem witness_StepKeepsInvariant :
    (inFlight [present lda]).Inv ∧ ∃ t, step (inFlight [present lda]) = .next t :=
  ⟨inFlight_inv _ (by decide), _, rfl⟩

theorem witness_BlockNeverStops : (inFlight [present lda]).Inv := inFlight_inv _ (by decide)

theorem witness_ResponsesLeaveInOrder :
    (blockWith 0 [present lda]).Inv ∧ (blockWith 0 [present lda]).config.latency = 0 ∧
    (inFlight [present lda]).Inv ∧ (∀ x ∈ (inFlight [present lda]).inputs, x.rstN = true) ∧
    1 < (inFlight [present lda]).config.latency :=
  ⟨blockWith_inv 0 _ (by decide), rfl, inFlight_inv _ (by decide), by decide, by decide⟩

theorem witness_RequestsAreIndependent :
    (inFlight [present lda, present ports]).Inv ∧ (present lda).req.wf (inFlight []).config.params = true ∧
    (∀ y ∈ (inFlight [present lda, present ports]).inputs, y.rstN = true) ∧ (present lda).rstN = true ∧ 1 ≠ 0 :=
  ⟨inFlight_inv _ (by decide), by decide, by decide, rfl, by decide⟩

/-- A request whose every port but `op` differs from `ports`. -/
def otherPorts (op : BitVec 4) : Request :=
  { op := op, bvA := vec [1], wA := 1, wB := 1, intA := 1, byteA := 1, idx := 1, cnt := 1,
    wordA := List.replicate 18 true, line := List.replicate 64 1, lineLen := 1 }

theorem witness_UnnamedPortsIgnored :
    (∀ op ∈ [0x0#4, 0x1#4], let r := otherPorts op; let r' := { ports with op := op, bvA := vec [1], wA := 1 }
      r ≠ r' ∧ r.op = r'.op ∧ (r.op = 0x0#4 ∨ r.op = 0x1#4) ∧ r.bvA = r'.bvA ∧ r.wA = r'.wA) ∧
    (let r := otherPorts 2; let r' := { ports with op := 2, intA := 1, wA := 1 }
      r ≠ r' ∧ r.op = r'.op ∧ r.op = 0x2#4 ∧ r.intA = r'.intA ∧ r.wA = r'.wA) ∧
    (let r := otherPorts 3; let r' := { ports with op := 3, bvA := vec [1], wA := 1, wB := 1 }
      r ≠ r' ∧ r.op = r'.op ∧ r.op = 0x3#4 ∧ r.bvA = r'.bvA ∧ r.wA = r'.wA ∧ r.wB = r'.wB) ∧
    (let r := otherPorts 4; let r' := { ports with op := 4, byteA := 1, idx := 1 }
      r ≠ r' ∧ r.op = r'.op ∧ r.op = 0x4#4 ∧ r.byteA = r'.byteA ∧ r.idx = r'.idx) ∧
    (let r := otherPorts 5
     let r' := { ports with op := 5, byteA := 1, wordA := List.replicate 18 true, idx := 1, cnt := 1 }
     r ≠ r' ∧ r.op = r'.op ∧ r.op = 0x5#4 ∧ r.byteA = r'.byteA ∧ r.wordA = r'.wordA ∧ r.cnt = r'.cnt ∧
        r.idx = r'.idx) ∧
    (let r := otherPorts 6
     let r' := { ports with op := 6, wordA := List.replicate 18 true, line := 1 :: List.replicate 63 0, lineLen := 1 }
     r ≠ r' ∧ r.op = r'.op ∧ r.op = 0x6#4 ∧ r.wordA = r'.wordA ∧ r.lineLen = r'.lineLen ∧
        r.line.length = r'.line.length ∧ ∀ k, k < r.lineLen → r.line[k]? = r'.line[k]?) ∧
    (let r := otherPorts 7; let r' := { ports with op := 7 }
      r ≠ r' ∧ r.op = r'.op ∧ 7 ≤ r.op.toNat) := by decide

theorem witness_DecodeOfEncode :
    ∀ i ∈ [Instr.packThree 3 (str [76, 68, 65, 44, 49, 44, 50]) word0, .toUnsigned (vec [1]) 127, .reservedHigh 7],
      i.wf base.config.params = true ∧ i.selected base.config.registry = true ∧ configLegal base.config = true := by decide

theorem witness_DecodedInstructionFits : lda.wf base.config.params = true ∧
    decodeRequest base.config lda = .ok (.packThree 3 lda.text word0) := by decide

theorem witness_SelectorStandsInOneRow :
    0x7F#7 &&& (Instr.reservedHigh 0).rowMask = (Instr.reservedHigh 0).rowMatch := by decide

end Sys2Proof.Tests
end

namespace Sys2Proof.Machine

/-! ## The invariant and the updates of the state -/

/-- What stands in the pipeline or enters it fits the output ports, when what enters does. -/
theorem State.Inv.fits_of_mem_entering {s : State} (h : s.Inv) {e : Option Response}
    (he : ∀ r, e = some r → responseFits s.config.params r = true) {r : Response}
    (hr : some r ∈ s.pipeline ++ [e]) :
    responseFits s.config.params r = true := by
  rcases List.mem_append.mp hr with hold | hnew
  · exact h.inFlightFit r hold
  · exact he r (List.mem_singleton.mp hnew).symm

theorem State.Inv.consume {s : State} (h : s.Inv) : s.consume.Inv :=
  { h with inputsFit := fun x hx => h.inputsFit x (List.mem_of_mem_tail hx) }

/-- Holding reset leaves no response anywhere (R35). -/
theorem State.Inv.hold {s : State} (h : s.Inv) : s.hold.Inv where
  legal := h.legal
  stages := by simpa using h.stages
  inputsFit := h.inputsFit
  inFlightFit := fun r hr => by simp at hr
  presentedFits := fun r hr => by simp at hr

/-- A cycle only moves responses: those after it were in flight before it, or entered in it. -/
theorem State.Inv.clock {s : State} (h : s.Inv) {e : Option Response}
    (he : ∀ r, e = some r → responseFits s.config.params r = true) : (s.clock e).Inv where
  legal := h.legal
  stages := by rw [State.clock_pipeline_length]; exact h.stages
  inputsFit := h.inputsFit
  inFlightFit := fun _ hr => h.fits_of_mem_entering he (State.mem_clock_pipeline hr)
  presentedFits := fun _ hr => h.fits_of_mem_entering he (hr ▸ State.clock_rsp_mem s e)

/-- Settles O52: what enters the pipeline is nothing or the response of a request, which fits under a legal
configuration. -/
theorem stepKeepsInvariant : Obligations.StepKeepsInvariant := by
  intro s t hs hstep
  obtain rfl | rfl | ⟨r, _, rfl⟩ := step_cases hstep
  · exact hs.consume.hold
  · exact hs.consume.clock (by simp)
  · refine hs.consume.clock fun r' hr' => ?_
    injection hr' with hr'
    exact hr' ▸ requestResponse_fits hs.legal r

/-- Settles O51: the default widths are legal, and nothing is lined up, in flight or presented. -/
theorem invariantAtReset : Obligations.InvariantAtReset := by
  refine ⟨?_, rfl, rfl⟩
  exact
    { legal := by decide
      stages := rfl
      inputsFit := fun x hx => by cases hx
      inFlightFit := fun r hr => by cases hr
      presentedFits := fun r hr => by cases hr }

/-- Settles O50, by induction on the number of steps. -/
theorem configurationNeverChanges : Obligations.ConfigurationNeverChanges := by
  intro n
  induction n with
  | zero =>
    intro s t h
    injection h with h
    rw [h]
  | succ n ih =>
    intro s t h
    obtain ⟨u, hstep, hrun⟩ := run_succ_inv h
    rw [ih u t hrun, step_config hstep]

end Sys2Proof.Machine

namespace Sys2Proof

open Sys2Proof.Machine

/-! ## What a response depends on -/

/-- After decoding, no operation reads the registry. -/
theorem Instr.response_with_registry (c : Config) (g : Registry) (i : Instr) :
    i.response { c with registry := g } = i.response c := by
  cases i <;> rfl

/-- Configurations that select the same instruction for a request, and differ in the registry alone, give it the same
response. -/
theorem requestResponse_with_registry {c : Config} {g : Registry} {r : Request}
    (h : decodeRequest { c with registry := g } r = decodeRequest c r) :
    requestResponse { c with registry := g } r = requestResponse c r := by
  rw [requestResponse, requestResponse, h]
  cases decodeRequest c r with
  | error e => rfl
  | ok i => exact Instr.response_with_registry c g i

/-- Decoding a PACK request reads the registry through the one lookup of `selectPack`, any other request not at all. -/
theorem decodeRequest_congr_config {c c' : Config} {r : Request} (h : selectPack c r = selectPack c' r) :
    decodeRequest c r = decodeRequest c' r := by
  rw [decodeRequest, decodeRequest, h]

/-- The lookup of a PACK request reads the registry at the key of a line only. -/
theorem selectPack_with_registry {c : Config} {g : Registry} (r : Request)
    (h : ∀ k, keyOf r.text = some k → g.lookup k = c.registry.lookup k) :
    selectPack { c with registry := g } r = selectPack c r := by
  rw [selectPack, selectPack]
  cases hk : keyOf r.text with
  | none => rfl
  | some k => simp only [h k hk]

/-- Settles O23: the key of a line is "IN" or three characters that do not begin so, and a lookup reads neither another
key nor the flag table. -/
theorem deadEntriesUnread : Obligations.DeadEntriesUnread := by
  intro c g r hlive
  refine requestResponse_with_registry (decodeRequest_congr_config (selectPack_with_registry r fun k hk => ?_))
  obtain ⟨hfmt, hopc⟩ := hlive k (keyOf_cases hk)
  rw [Registry.lookup, Registry.lookup, Registry.lookupFormat, Registry.lookupFormat, Registry.lookupOpcode,
    Registry.lookupOpcode, hfmt, hopc]

/-! ## The instruction each `op` selects (R65) -/

theorem decodeRequest_op_toUnsigned {c : Config} {r : Request} (h : r.op = 0x0) :
    decodeRequest c r = .ok (.toUnsigned r.bvA r.wA) := by
  rw [decodeRequest_of_ne (by rw [h]; decide), h]; rfl

theorem decodeRequest_op_toSigned {c : Config} {r : Request} (h : r.op = 0x1) :
    decodeRequest c r = .ok (.toSigned r.bvA r.wA) := by
  rw [decodeRequest_of_ne (by rw [h]; decide), h]; rfl

theorem decodeRequest_op_fromInteger {c : Config} {r : Request} (h : r.op = 0x2) :
    decodeRequest c r = .ok (.fromInteger r.intA r.wA) := by
  rw [decodeRequest_of_ne (by rw [h]; decide), h]; rfl

theorem decodeRequest_op_resize {c : Config} {r : Request} (h : r.op = 0x3) :
    decodeRequest c r = .ok (.resize r.bvA r.wA r.wB) := by
  rw [decodeRequest_of_ne (by rw [h]; decide), h]; rfl

theorem decodeRequest_op_testBit {c : Config} {r : Request} (h : r.op = 0x4) :
    decodeRequest c r = .ok (.testBit r.byteA r.idx) := by
  rw [decodeRequest_of_ne (by rw [h]; decide), h]; rfl

theorem decodeRequest_op_copyBits {c : Config} {r : Request} (h : r.op = 0x5) :
    decodeRequest c r = .ok (.copyBits r.byteA r.wordA r.cnt.toNat r.idx) := by
  rw [decodeRequest_of_ne (by rw [h]; decide), h]; rfl

theorem decodeRequest_op_reservedSeven {c : Config} {r : Request} (h : r.op = 0x7) :
    decodeRequest c r = .ok .reservedSeven := by
  rw [decodeRequest_of_ne (by rw [h]; decide), h]; rfl

/-- The `op` field of the 7-bit selector of R67. -/
theorem extract_op_append (op : BitVec 4) (f : BitVec 3) : (op ++ f).extractLsb' 3 4 = op :=
  BitVec.extractLsb'_append_eq_left

theorem decodeRequest_op_reservedHigh {c : Config} {r : Request} (h : 8 ≤ r.op.toNat) :
    decodeRequest c r = .ok (.reservedHigh (r.op.extractLsb' 0 3)) := by
  have hne : ∀ k : BitVec 4, k.toNat < 8 → r.op ≠ k := fun k hk heq => by subst heq; omega
  rw [decodeRequest_of_ne (hne opPack (by decide)), decodeSelector]
  simp [extract_op_append, hne]

/-- A reserved `op` is answered INVALID_OP, whatever the other ports carry (R66). -/
theorem requestResponse_reserved {c : Config} {r : Request} (h : 7 ≤ r.op.toNat) :
    requestResponse c r = .failure .invalidOp := by
  rw [requestResponse]
  rcases Nat.eq_or_lt_of_le h with heq | hlt
  · rw [decodeRequest_op_reservedSeven (BitVec.eq_of_toNat_eq heq.symm)]; rfl
  · rw [decodeRequest_op_reservedHigh hlt]; rfl

/-! ## The ports PACK reads -/

/-- The text of a line is its bytes below `line_len`. -/
theorem Request.text_congr {r r' : Request} (hlen : r.lineLen = r'.lineLen)
    (h : ∀ k, k < r.lineLen → r.line[k]? = r'.line[k]?) : r.text = r'.text := by
  refine List.ext_getElem? fun k => ?_
  rw [Request.text, Request.text, ← hlen, List.getElem?_take, List.getElem?_take]
  split
  · exact h k ‹_›
  · rfl

/-- PACK reads `word_a`, `line_len` and the text (R32, R131). -/
theorem decodeRequest_pack_congr {c : Config} {r r' : Request} (hop : r.op = opPack) (hop' : r'.op = opPack)
    (hword : r.wordA = r'.wordA) (hlen : r.lineLen = r'.lineLen) (htext : r.text = r'.text) :
    decodeRequest c r = decodeRequest c r' := by
  have hselect : selectPack c r = selectPack c r' := by rw [selectPack, selectPack, hlen, htext]
  cases hs : selectPack c r with
  | error e => rw [decodeRequest_pack_error hop hs, decodeRequest_pack_error hop' (hselect ▸ hs)]
  | ok fo => rw [decodeRequest_pack hop hs, decodeRequest_pack hop' (hselect ▸ hs), htext, hword]

/-- Requests that decode alike have the same response. -/
theorem requestResponse_congr_decode {c : Config} {r r' : Request} (h : decodeRequest c r = decodeRequest c r') :
    requestResponse c r = requestResponse c r' := by
  rw [requestResponse, requestResponse, h]

/-- Settles O56: the ports an operation names are exactly the operands of the instruction its request decodes to. -/
theorem unnamedPortsIgnored : Obligations.UnnamedPortsIgnored := by
  intro c r r' hop
  refine ⟨?toInteger, ?fromInteger, ?resize, ?testBit, ?copyBits, ?pack, ?reserved⟩
  case toInteger =>
    rintro (h | h) hbv hw
    · exact requestResponse_congr_decode
        (by rw [decodeRequest_op_toUnsigned h, decodeRequest_op_toUnsigned (hop ▸ h), hbv, hw])
    · exact requestResponse_congr_decode
        (by rw [decodeRequest_op_toSigned h, decodeRequest_op_toSigned (hop ▸ h), hbv, hw])
  case fromInteger =>
    intro h hint hw
    exact requestResponse_congr_decode
      (by rw [decodeRequest_op_fromInteger h, decodeRequest_op_fromInteger (hop ▸ h), hint, hw])
  case resize =>
    intro h hbv hsw hdw
    exact requestResponse_congr_decode
      (by rw [decodeRequest_op_resize h, decodeRequest_op_resize (hop ▸ h), hbv, hsw, hdw])
  case testBit =>
    intro h hbyte hidx
    exact requestResponse_congr_decode
      (by rw [decodeRequest_op_testBit h, decodeRequest_op_testBit (hop ▸ h), hbyte, hidx])
  case copyBits =>
    intro h hbyte hword hcnt hidx
    exact requestResponse_congr_decode
      (by rw [decodeRequest_op_copyBits h, decodeRequest_op_copyBits (hop ▸ h), hbyte, hword, hcnt, hidx])
  case pack =>
    intro h hword hlen _ hline
    exact requestResponse_congr_decode
      (decodeRequest_pack_congr h (hop ▸ h) hword hlen (Request.text_congr hlen hline))
  case reserved =>
    intro h
    rw [requestResponse_reserved h, requestResponse_reserved (hop ▸ h)]

end Sys2Proof

namespace Sys2Proof.Machine

/-! ## The frame of an instruction -/

/-- Every arm of exec is the cycle that accepts the instruction's response, and nothing else (R59). -/
theorem exec_eq_respond (i : Instr) (s : State) : exec i s = .next (s.respond (i.response s.config)) := by
  cases i <;> rfl

theorem State.respond_pipeline_length (s : State) (r : Response) :
    (s.respond r).pipeline.length = s.pipeline.length := s.clock_pipeline_length (some r)

/-- With no pipeline stage the response is presented in its own cycle (R191). -/
theorem State.respond_rsp_of_nil {s : State} (hs : s.pipeline = []) (r : Response) : (s.respond r).rsp = some r := by
  rw [State.respond_eq_clock, State.clock_rsp, hs, List.nil_append, List.headD_cons]

/-- The oldest stage leaves (R195). -/
theorem State.respond_rsp_of_cons {s : State} {oldest : Option Response} {rest : List (Option Response)}
    (hs : s.pipeline = oldest :: rest) (r : Response) : (s.respond r).rsp = oldest := by
  rw [State.respond_eq_clock, State.clock_rsp, hs, List.cons_append, List.headD_cons]

/-- The response enters as the newest stage (R195). -/
theorem State.respond_pipeline_of_cons {s : State} {oldest : Option Response} {rest : List (Option Response)}
    (hs : s.pipeline = oldest :: rest) (r : Response) : (s.respond r).pipeline = rest ++ [some r] := by
  rw [State.respond_eq_clock, State.clock_pipeline, hs, List.cons_append, List.tail_cons]

/-- Settles O45: exec only presents the instruction's response, so its frame is that of `State.respond`. -/
theorem execChangesOnlyPipelineAndOutput : Obligations.ExecChangesOnlyPipelineAndOutput := by
  intro i s
  refine ⟨exec_eq_respond i s, fun t ht => ?_⟩
  obtain rfl : s.respond (i.response s.config) = t := by
    rw [exec_eq_respond] at ht
    injection ht
  exact ⟨s.respond_config _, s.respond_inputs _, s.respond_pipeline_length _,
    fun hs => State.respond_rsp_of_nil hs _,
    fun _ _ hs => ⟨State.respond_rsp_of_cons hs _, State.respond_pipeline_of_cons hs _⟩⟩

/-! ## The elements an operation reads (R56) -/

/-- Instructions with the same response run alike. -/
theorem exec_congr_response {i i' : Instr} {s : State} (h : i.response s.config = i'.response s.config) :
    exec i s = exec i' s := by
  rw [exec_eq_respond, exec_eq_respond, h]

section
variable {bits bits' : BitVector} {w : Nat} (h : ∀ i, i < w → elemAt bits i = elemAt bits' i)
include h

/-- A width of at least 1 covers the sign element. -/
theorem signedSum_congr (hw : 1 ≤ w) : signedSum bits w = signedSum bits' w := by
  rw [signedSum, signedSum, unsignedSum_congr h, h 0 hw]

/-- A resized vector is the source's value written at the new width. -/
theorem resizeVector_congr {vmax dw : Nat} (hd : dw ≤ vmax) :
    resizeVector vmax bits w dw = resizeVector vmax bits' w dw := by
  refine eq_of_elemAt_eq (by simp) fun i _ => ?_
  rw [elemAt_resizeVector hd, elemAt_resizeVector hd, unsignedSum_congr h]

theorem toUnsignedResponse_congr (c : Config) : toUnsignedResponse c bits w = toUnsignedResponse c bits' w := by
  rw [toUnsignedResponse, toUnsignedResponse, unsignedValue_eq_sum, unsignedValue_eq_sum, unsignedSum_congr h]

theorem toSignedResponse_congr (c : Config) : toSignedResponse c bits w = toSignedResponse c bits' w := by
  rw [toSignedResponse, toSignedResponse]
  split
  case isTrue => rfl
  case isFalse hw =>
    obtain ⟨h1, h2⟩ := widthOk_iff.mp (by simpa using hw)
    rw [signedValue_eq_signedSum h2, signedValue_eq_signedSum h2, signedSum_congr h h1]

theorem resizeResponse_congr (c : Config) (dw : Nat) : resizeResponse c bits w dw = resizeResponse c bits' w dw := by
  rw [resizeResponse, resizeResponse]
  split
  case isTrue => rfl
  split
  case isTrue => rfl
  case isFalse hd =>
    obtain ⟨_, hle⟩ := widthOk_iff.mp (by simpa using hd)
    rw [resizeVector_congr h hle]

end

/-- Settles O16: a refused width reads no element, and at any other width each operation depends on the vector
through its sum over the elements below the width, TO_SIGNED also through element 0. -/
theorem elementsAboveWidthIgnored : Obligations.ElementsAboveWidthIgnored := by
  intro s bits bits' w dw h
  exact ⟨exec_congr_response (toUnsignedResponse_congr h s.config),
    exec_congr_response (toSignedResponse_congr h s.config),
    exec_congr_response (resizeResponse_congr h s.config dw)⟩

end Sys2Proof.Machine

namespace Sys2Proof

open Sys2Proof.Machine

/-! ## The PACK rows as one row with a format -/

/-- The rows of the opcode table with the eight PACK rows taken together, for a proof by cases on an instruction. -/
theorem Instr.row_cases {motive : Instr → Prop}
    (toUnsigned : ∀ bits width, motive (.toUnsigned bits width))
    (toSigned : ∀ bits width, motive (.toSigned bits width))
    (fromInteger : ∀ value width, motive (.fromInteger value width))
    (resize : ∀ source sw dw, motive (.resize source sw dw))
    (testBit : ∀ b k, motive (.testBit b k))
    (copyBits : ∀ b word c h, motive (.copyBits b word c h))
    (pack : ∀ f o text word, motive (packInstr f o text word))
    (reservedSeven : motive .reservedSeven)
    (reservedHigh : ∀ low, motive (.reservedHigh low)) : ∀ i, motive i
  | .toUnsigned bits width => toUnsigned bits width
  | .toSigned bits width => toSigned bits width
  | .fromInteger value width => fromInteger value width
  | .resize source sw dw => resize source sw dw
  | .testBit b k => testBit b k
  | .copyBits b word c h => copyBits b word c h
  | .packOne o text word => pack .one o text word
  | .packTwo o text word => pack .two o text word
  | .packThree o text word => pack .three o text word
  | .packFour o text word => pack .four o text word
  | .packFive o text word => pack .five o text word
  | .packSix o text word => pack .six o text word
  | .packSeven o text word => pack .seven o text word
  | .packEight o text word => pack .eight o text word
  | .reservedSeven => reservedSeven
  | .reservedHigh low => reservedHigh low

section
variable (f : Format) (o : Byte) (text : List Byte) (word : Word)

@[simp] theorem packInstr_wf (p : Params) :
    (packInstr f o text word).wf p = (p.textFits text && p.wordFits word) := by cases f <;> rfl

@[simp] theorem packInstr_selected (g : Registry) :
    (packInstr f o text word).selected g = g.selects f o text := by cases f <;> rfl

@[simp] theorem encode_packInstr (p : Params) :
    encode p (packInstr f o text word) = encodePack p text word := by cases f <;> rfl

@[simp] theorem packInstr_rowMatch : (packInstr f o text word).rowMatch = opPack ++ f.code := by cases f <;> rfl

@[simp] theorem packInstr_rowMask : (packInstr f o text word).rowMask = 0x7F := by cases f <;> rfl

end

/-! ## The lookup of a PACK request (R131 to R134) -/

theorem Registry.lookup_ok_iff {g : Registry} {k : Key} {f : Format} {o : Byte} :
    g.lookup k = .ok (f, o) ↔ g.lookupFormat k = some f ∧ g.lookupOpcode k = some o := by
  rw [Registry.lookup]
  cases g.lookupFormat k <;> cases g.lookupOpcode k <;> simp

theorem Registry.selects_iff {g : Registry} {f : Format} {o : Byte} {text : List Byte} :
    g.selects f o text = true ↔ ∃ k, keyOf text = some k ∧ g.lookupFormat k = some f ∧ g.lookupOpcode k = some o := by
  rw [Registry.selects]
  cases keyOf text <;> simp

/-- A PACK request selects a row when its line fits and the registry selects that row for its text. -/
theorem selectPack_ok_iff {c : Config} {r : Request} {f : Format} {o : Byte} :
    selectPack c r = .ok (f, o) ↔ r.lineLen ≤ c.params.lineMax ∧ c.registry.selects f o r.text = true := by
  rw [selectPack, Registry.selects_iff]
  split
  case isTrue h => simp [h]
  case isFalse h => cases keyOf r.text <;> simp [Registry.lookup_ok_iff, Nat.le_of_not_lt h]

/-! ## Encoding and decoding (R65, R67, R72) -/

/-- The text of an encoded PACK request is the text encoded. -/
@[simp] theorem encodePack_text (p : Params) (text : List Byte) (word : Word) :
    (encodePack p text word).text = text := by
  rw [Request.text, encodePack]
  exact List.take_left

theorem decodeRequest_encodePack {c : Config} {f : Format} {o : Byte} {text : List Byte} (word : Word)
    (hfit : text.length ≤ c.params.lineMax) (hsel : c.registry.selects f o text = true) :
    decodeRequest c (encodePack c.params text word) = .ok (packInstr f o text word) := by
  have hrow : selectPack c (encodePack c.params text word) = .ok (f, o) :=
    selectPack_ok_iff.mpr ⟨hfit, by rwa [encodePack_text]⟩
  rw [decodeRequest_pack rfl hrow, encodePack_text]
  rfl

/-- The 4-bit `cnt` port carries every count below 16. -/
theorem toNat_ofNat_cnt {n : Nat} (h : n < 16) : (BitVec.ofNat 4 n).toNat = n := by
  rw [BitVec.toNat_ofNat]
  exact Nat.mod_eq_of_lt h

/-- `op` 0x8 to 0xF with its low three bits free (R66). -/
theorem reservedHigh_op (low : BitVec 3) :
    8 ≤ (0b1#1 ++ low : BitVec 4).toNat ∧ (0b1#1 ++ low : BitVec 4).extractLsb' 0 3 = low := by
  revert low
  decide

/-- Decoding reads each operand from the port the encoder put it on. -/
theorem decodeRequest_encode {c : Config} {i : Instr} (hwf : i.wf c.params = true)
    (hsel : i.selected c.registry = true) : decodeRequest c (encode c.params i) = .ok i := by
  cases i using Instr.row_cases with
  | toUnsigned bits width => exact decodeRequest_op_toUnsigned rfl
  | toSigned bits width => exact decodeRequest_op_toSigned rfl
  | fromInteger value width => exact decodeRequest_op_fromInteger rfl
  | resize source sw dw => exact decodeRequest_op_resize rfl
  | testBit b k => exact decodeRequest_op_testBit rfl
  | copyBits b word n h =>
    obtain ⟨hcnt, _⟩ := Bool.and_eq_true_iff.mp hwf
    obtain ⟨_, hcnt⟩ := Bool.and_eq_true_iff.mp hcnt
    rw [decodeRequest_op_copyBits rfl]
    simp only [encode, toNat_ofNat_cnt (of_decide_eq_true hcnt)]
  | pack f o text word =>
    rw [packInstr_wf] at hwf
    rw [packInstr_selected] at hsel
    obtain ⟨htext, _⟩ := Bool.and_eq_true_iff.mp hwf
    rw [encode_packInstr]
    exact decodeRequest_encodePack word (of_decide_eq_true htext) hsel
  | reservedSeven => exact decodeRequest_op_reservedSeven rfl
  | reservedHigh low =>
    obtain ⟨hop, hlow⟩ := reservedHigh_op low
    rw [decodeRequest_op_reservedHigh hop]
    exact congrArg (Except.ok ∘ Instr.reservedHigh) hlow

/-! ## Requests that fit the ports (R32) -/

theorem Request.wf_iff {p : Params} {r : Request} :
    r.wf p = true ↔ p.vectorFits r.bvA = true ∧ p.widthFits r.wA = true ∧ p.widthFits r.wB = true ∧
      p.intFits r.intA = true ∧ p.idxFits r.idx = true ∧ p.wordFits r.wordA = true ∧ r.line.length = p.lineMax ∧
      r.lineLen < 2 ^ p.lineLenBits := by
  simp only [Request.wf, Bool.and_eq_true, decide_eq_true_eq, and_assoc]

/-- Every port carries 0 (R32). -/
theorem Request.wf_zero (p : Params) : (Request.zero p).wf p = true := by
  simp [Request.wf, Request.zero, Params.vectorFits, Params.widthFits, Params.intFits, Params.idxFits, Params.wordFits]

theorem encodePack_wf {p : Params} {text : List Byte} {word : Word} (htext : text.length ≤ p.lineMax)
    (hword : p.wordFits word = true) : (encodePack p text word).wf p = true := by
  obtain ⟨hbv, hwa, hwb, hint, hidx, _, _, _⟩ := Request.wf_iff.mp (Request.wf_zero p)
  refine Request.wf_iff.mpr ⟨hbv, hwa, hwb, hint, hidx, hword, ?_, ?_⟩
  · simp [encodePack, htext]
  · exact Nat.lt_of_le_of_lt htext (lt_two_pow_bitsFor p.lineMax)

/-- An operand fits the port that carries it, and every other port carries 0. -/
theorem encode_wf {p : Params} {i : Instr} (h : i.wf p = true) : (encode p i).wf p = true := by
  obtain ⟨hbv, hwa, hwb, hint, hidx, hword, hline, hlen⟩ := Request.wf_iff.mp (Request.wf_zero p)
  cases i using Instr.row_cases with
  | toUnsigned bits width =>
    obtain ⟨hbits, hwidth⟩ := Bool.and_eq_true_iff.mp h
    exact Request.wf_iff.mpr ⟨hbits, hwidth, hwb, hint, hidx, hword, hline, hlen⟩
  | toSigned bits width =>
    obtain ⟨hbits, hwidth⟩ := Bool.and_eq_true_iff.mp h
    exact Request.wf_iff.mpr ⟨hbits, hwidth, hwb, hint, hidx, hword, hline, hlen⟩
  | fromInteger value width =>
    obtain ⟨hvalue, hwidth⟩ := Bool.and_eq_true_iff.mp h
    exact Request.wf_iff.mpr ⟨hbv, hwidth, hwb, hvalue, hidx, hword, hline, hlen⟩
  | resize source sw dw =>
    obtain ⟨hsource, hdw⟩ := Bool.and_eq_true_iff.mp h
    obtain ⟨hsource, hsw⟩ := Bool.and_eq_true_iff.mp hsource
    exact Request.wf_iff.mpr ⟨hsource, hsw, hdw, hint, hidx, hword, hline, hlen⟩
  | testBit b k => exact Request.wf_iff.mpr ⟨hbv, hwa, hwb, hint, h, hword, hline, hlen⟩
  | copyBits b word n high =>
    obtain ⟨htarget, hhigh⟩ := Bool.and_eq_true_iff.mp h
    obtain ⟨htarget, _⟩ := Bool.and_eq_true_iff.mp htarget
    exact Request.wf_iff.mpr ⟨hbv, hwa, hwb, hint, hhigh, htarget, hline, hlen⟩
  | pack f o text word =>
    rw [packInstr_wf] at h
    obtain ⟨htext, htarget⟩ := Bool.and_eq_true_iff.mp h
    rw [encode_packInstr]
    exact encodePack_wf (of_decide_eq_true htext) htarget
  | reservedSeven => exact Request.wf_zero p
  | reservedHigh low => exact Request.wf_zero p

/-- Settles O57, by cases on the row of the instruction. -/
theorem decodeOfEncode : Obligations.DecodeOfEncode := fun _ _ hwf hsel =>
  ⟨decodeRequest_encode hwf hsel, fun _ => encode_wf hwf⟩

end Sys2Proof

namespace Sys2Proof

open Sys2Proof.Machine

/-- The 16 values of `op`: PACK, the reserved ones from 0x8 on, and those with a row of their own (R65). -/
theorem op_cases (op : BitVec 4) : op = opPack ∨ 8 ≤ op.toNat ∨ op = 0x0 ∨ op = 0x1 ∨ op = 0x2 ∨ op = 0x3 ∨ op = 0x4 ∨
    op = 0x5 ∨ op = 0x7 := by
  revert op
  decide

/-- A decoded PACK request is of the row its key selects. -/
theorem decodeRequest_pack_ok {c : Config} {r : Request} {i : Instr} (h : r.op = opPack)
    (hi : decodeRequest c r = .ok i) : ∃ f o, selectPack c r = .ok (f, o) ∧ i = packInstr f o r.text r.wordA := by
  cases hs : selectPack c r with
  | error e =>
    rw [decodeRequest_pack_error h hs] at hi
    cases hi
  | ok fo =>
    rw [decodeRequest_pack (f := fo.1) (o := fo.2) h hs] at hi
    exact ⟨fo.1, fo.2, rfl, (Except.ok.inj hi).symm⟩

theorem decoded_unique {c : Config} {r : Request} {i j : Instr} (hi : decodeRequest c r = .ok i)
    (hj : decodeRequest c r = .ok j) : i = j := Except.ok.inj (hi.symm.trans hj)

/-- The text of a line is no longer than the line. -/
theorem Request.text_length_le (r : Request) : r.text.length ≤ r.line.length := List.length_take_le' _ _

/-- Settles O58, by cases on `op`: each operand comes from a port of its own width, and a PACK row from a lookup that
answered. -/
theorem decodedInstructionFits : Obligations.DecodedInstructionFits := by
  intro c r i hr hi
  obtain ⟨hbv, hwa, hwb, hint, hidx, hword, hline, _⟩ := Request.wf_iff.mp hr
  rcases op_cases r.op with hop | hop | hop | hop | hop | hop | hop | hop | hop
  · obtain ⟨f, o, hs, rfl⟩ := decodeRequest_pack_ok hop hi
    obtain ⟨_, hsel⟩ := selectPack_ok_iff.mp hs
    have htext : c.params.textFits r.text = true := decide_eq_true (hline ▸ r.text_length_le)
    rw [packInstr_wf, packInstr_selected]
    exact ⟨Bool.and_eq_true_iff.mpr ⟨htext, hword⟩, hsel⟩
  · obtain rfl := decoded_unique (decodeRequest_op_reservedHigh hop) hi
    exact ⟨rfl, rfl⟩
  · obtain rfl := decoded_unique (decodeRequest_op_toUnsigned hop) hi
    exact ⟨Bool.and_eq_true_iff.mpr ⟨hbv, hwa⟩, rfl⟩
  · obtain rfl := decoded_unique (decodeRequest_op_toSigned hop) hi
    exact ⟨Bool.and_eq_true_iff.mpr ⟨hbv, hwa⟩, rfl⟩
  · obtain rfl := decoded_unique (decodeRequest_op_fromInteger hop) hi
    exact ⟨Bool.and_eq_true_iff.mpr ⟨hint, hwa⟩, rfl⟩
  · obtain rfl := decoded_unique (decodeRequest_op_resize hop) hi
    exact ⟨Bool.and_eq_true_iff.mpr ⟨Bool.and_eq_true_iff.mpr ⟨hbv, hwa⟩, hwb⟩, rfl⟩
  · obtain rfl := decoded_unique (decodeRequest_op_testBit hop) hi
    exact ⟨hidx, rfl⟩
  · obtain rfl := decoded_unique (decodeRequest_op_copyBits hop) hi
    have hcnt : c.params.cntFits r.cnt.toNat = true := decide_eq_true r.cnt.isLt
    exact ⟨Bool.and_eq_true_iff.mpr ⟨Bool.and_eq_true_iff.mpr ⟨hword, hcnt⟩, hidx⟩, rfl⟩
  · obtain rfl := decoded_unique (decodeRequest_op_reservedSeven hop) hi
    exact ⟨rfl, rfl⟩

/-! ## The opcode table (R67) -/

theorem Format.code_ofCode (b : BitVec 3) : (Format.ofCode b).code = b := by
  revert b
  decide

/-- The mask 0x78 keeps the `op` field of a selector. -/
theorem and_opMask (sel : BitVec 7) : sel &&& 0x78 = sel.extractLsb' 3 4 ++ (0 : BitVec 3) := by
  revert sel
  decide

/-- The mask 0x40 keeps the bit that tells the `op` values from 0x8 on. -/
theorem and_highMask_iff (sel : BitVec 7) : sel &&& 0x40 = 0x40 ↔ 8 ≤ (sel.extractLsb' 3 4).toNat := by
  revert sel
  decide

theorem selector_eq_append (sel : BitVec 7) : sel.extractLsb' 3 4 ++ sel.extractLsb' 0 3 = sel := by
  revert sel
  decide

theorem append_zero_inj {op op' : BitVec 4} (h : op ++ (0 : BitVec 3) = op' ++ (0 : BitVec 3)) : op = op' := by
  rw [← extract_op_append op 0, h, extract_op_append]

/-- The row a selector stands in, by its `match` and `mask`: PACK is the one operation that reads the format code, and
the reserved operations from 0x8 on share one row. -/
def selectorRow (sel : BitVec 7) : BitVec 7 × BitVec 7 :=
  if sel.extractLsb' 3 4 = opPack then (sel, 0x7F)
  else if 8 ≤ (sel.extractLsb' 3 4).toNat then (0x40, 0x40)
  else (sel.extractLsb' 3 4 ++ (0 : BitVec 3), 0x78)

theorem selectorRow_of_op {sel : BitVec 7} {op : BitVec 4} (h : sel &&& 0x78 = op ++ (0 : BitVec 3))
    (hpack : op ≠ opPack) (hhigh : op.toNat < 8) : selectorRow sel = (op ++ (0 : BitVec 3), 0x78) := by
  rw [and_opMask] at h
  obtain rfl := append_zero_inj h
  rw [selectorRow, if_neg hpack, if_neg (Nat.not_le_of_lt hhigh)]

/-- A selector that meets a row's `match` and `mask` stands in that row. -/
theorem selectorRow_of_meets {sel : BitVec 7} {i : Instr} (h : sel &&& i.rowMask = i.rowMatch) :
    selectorRow sel = (i.rowMatch, i.rowMask) := by
  cases i using Instr.row_cases with
  | toUnsigned => exact selectorRow_of_op (op := 0x0) h (by decide) (by decide)
  | toSigned => exact selectorRow_of_op (op := 0x1) h (by decide) (by decide)
  | fromInteger => exact selectorRow_of_op (op := 0x2) h (by decide) (by decide)
  | resize => exact selectorRow_of_op (op := 0x3) h (by decide) (by decide)
  | testBit => exact selectorRow_of_op (op := 0x4) h (by decide) (by decide)
  | copyBits => exact selectorRow_of_op (op := 0x5) h (by decide) (by decide)
  | pack f o text word =>
    rw [packInstr_rowMask, packInstr_rowMatch] at *
    obtain rfl : sel = opPack ++ f.code := (BitVec.and_allOnes (x := sel)).symm.trans h
    rw [selectorRow, if_pos (extract_op_append opPack f.code)]
  | reservedSeven => exact selectorRow_of_op (op := 0x7) h (by decide) (by decide)
  | reservedHigh low =>
    have hhigh := (and_highMask_iff sel).mp h
    have hpack : sel.extractLsb' 3 4 ≠ opPack := fun heq => absurd (heq ▸ hhigh) (by decide)
    rw [selectorRow, if_neg hpack, if_pos hhigh]
    rfl

/-- The instruction a selector decodes to is one whose row it meets. -/
theorem decodeSelector_meets (sel : BitVec 7) (o : Byte) (r : Request) :
    sel &&& (decodeSelector sel o r).rowMask = (decodeSelector sel o r).rowMatch := by
  have hop := and_opMask sel
  rcases op_cases (sel.extractLsb' 3 4) with h | h | h | h | h | h | h | h | h
  · have hdec : decodeSelector sel o r = packInstr (Format.ofCode (sel.extractLsb' 0 3)) o r.text r.wordA := by
      simp [decodeSelector, h, opPack]
    rw [hdec, packInstr_rowMask, packInstr_rowMatch, Format.code_ofCode, ← h, selector_eq_append]
    exact BitVec.and_allOnes
  · have hne : ∀ k : BitVec 4, k.toNat < 8 → sel.extractLsb' 3 4 ≠ k := fun k hk heq => by subst heq; omega
    have hdec : decodeSelector sel o r = .reservedHigh ((sel.extractLsb' 3 4).extractLsb' 0 3) := by
      simp [decodeSelector, hne]
    rw [hdec]
    exact (and_highMask_iff sel).mpr h
  all_goals
    rw [h] at hop
    simpa [decodeSelector, h, Instr.rowMask, Instr.rowMatch] using hop

/-- Settles O59: a row met is the selector's row, and the decoded instruction's row is met. -/
theorem selectorStandsInOneRow : Obligations.SelectorStandsInOneRow := by
  intro sel o r
  have hmeets := decodeSelector_meets sel o r
  refine ⟨hmeets, fun i hi => ?_⟩
  exact Prod.mk.inj ((selectorRow_of_meets hi).symm.trans (selectorRow_of_meets hmeets))

/-- Settles O60, by evaluating the decoder at each selector. -/
theorem selectorsOfEachFamily : Obligations.SelectorsOfEachFamily :=
  ⟨⟨_, _, rfl⟩, ⟨_, _, rfl⟩, ⟨_, _, rfl⟩, ⟨_, _, _, rfl⟩, ⟨_, _, rfl⟩, ⟨_, _, _, _, rfl⟩, ⟨_, _, _, rfl⟩, ⟨_, _, _, rfl⟩,
    rfl, rfl, rfl⟩

/-! ## Reserved operations (R66) and the step (R195) -/

/-- The low three bits of a reserved `op` from 0x8 on. -/
theorem toNat_extract_low {op : BitVec 4} (h : 8 ≤ op.toNat) : (op.extractLsb' 0 3).toNat = op.toNat - 8 := by
  revert op
  decide

/-- Settles O40: the decoder reads `op` alone, and `exec` answers with the response of the row. -/
theorem reservedAnswersInvalidOp : Obligations.ReservedAnswersInvalidOp :=
  ⟨fun _ _ h => decodeRequest_op_reservedSeven h,
    fun _ _ h => ⟨_, decodeRequest_op_reservedHigh h, toNat_extract_low h⟩,
    fun s => ⟨exec_eq_respond .reservedSeven s, fun low => exec_eq_respond (.reservedHigh low) s⟩⟩

/-- A request presented outside reset is accepted; without a pipeline stage there is no reset (R190, R191). -/
theorem fetchCycle_request {s : State} {x : CycleInput} {rest : List CycleInput} (hs : s.inputs = x :: rest)
    (hv : x.reqValid = true) (hr : s.config.latency = 0 ∨ x.rstN = true) : fetchCycle s = .request x.req := by
  have hheld : ¬ (0 < s.config.latency ∧ x.rstN = false) := by
    rcases hr with hr | hr <;> simp [hr]
  simp only [fetchCycle, hs, if_neg hheld, if_pos hv]

/-- Settles O46: the cycle accepts the request, and decoding it gives the instruction. -/
theorem stepRunsDecodedInstruction : Obligations.StepRunsDecodedInstruction := by
  intro s x rest i hlegal hs hv hr hdec
  have hconsume : s.consume = { s with inputs := rest } := by rw [State.consume, hs]; rfl
  rw [step, if_neg (by simp [hlegal]), fetchCycle_request hs hv hr]
  simp only [hdec, hconsume]

end Sys2Proof

namespace Sys2Proof.Machine

/-! ## Numeric tokens (R79) -/

@[simp] theorem decimalValue_singleton (b : Byte) : decimalValue [b] = digitValue b := by simp [decimalValue]

/-- A leading zero adds nothing to the number a text spells. -/
@[simp] theorem decimalValue_zero_cons (t : List Byte) : decimalValue (0x30#8 :: t) = decimalValue t := rfl

/-- A leading zero before a text that is not empty does not change what is read. -/
theorem parseDec_zero_cons {t : List Byte} (ht : t ≠ []) : parseDec (0x30#8 :: t) = parseDec t := by
  have hzero : isDigit 0x30#8 = true := by decide
  rw [parseDec, parseDec, if_neg (List.cons_ne_nil _ t), if_neg ht, decimalValue_zero_cons, List.all_cons, hzero,
    Bool.true_and]

/-- Settles O18: ParseDec accepts exactly the numeric tokens. -/
theorem numericTokenValue : Obligations.NumericTokenValue := by
  refine ⟨fun t ht => ?_, fun t ht => parseDec_of_not_numericToken ht, fun t ht => parseDec_zero_cons ht⟩
  rw [parseDec_of_numericToken ht, decimalValue_eq_ofDigits]

/-! ## Fixed-offset fields (R80) -/

theorem digitValue_le_nine {b : Byte} (h : isDigit b = true) : digitValue b ≤ 9 := by
  have := (isDigit_iff.mp h).2
  rw [digitValue, show charZero.toNat = 0x30 from rfl]
  omega

/-- The value of a digit fits a byte. -/
theorem eq_ofNat_digitValue_iff {b v : Byte} (h : isDigit b = true) :
    v = BitVec.ofNat 8 (digitValue b) ↔ v.toNat = b.toNat - 0x30 := by
  have hle := digitValue_le_nine h
  rw [← BitVec.toNat_inj, BitVec.toNat_ofNat, Nat.mod_eq_of_lt (by omega)]
  rfl

/-- A lone digit is a numeric token. -/
theorem parseDec_digit {b : Byte} (h : isDigit b = true) : parseDec [b] = .ok (BitVec.ofNat 8 (digitValue b)) := by
  have hle := digitValue_le_nine h
  rw [parseDec, if_neg (List.cons_ne_nil b []), if_neg (by simp [h]), decimalValue_singleton, if_neg (by omega)]

/-- What remains of a text from `pos` on is a character and a rest that is empty or begins with a comma. -/
theorem drop_lineRest_iff {text : List Byte} {pos : Nat} {b : Byte} :
    (∃ rest, text.drop pos = b :: rest ∧ lineRest rest) ↔
      text[pos]? = some b ∧ (pos + 1 = text.length ∨ text[pos + 1]? = some charComma) := by
  constructor
  · rintro ⟨rest, hdrop, hrest⟩
    have htail : text.drop (pos + 1) = rest := by rw [← List.drop_drop, hdrop]; rfl
    refine ⟨by rw [← List.head?_drop, hdrop]; rfl, ?_⟩
    rcases hrest with rfl | ⟨more, rfl⟩
    · have hlen := congrArg List.length hdrop
      simp only [List.length_drop, List.length_cons, List.length_nil] at hlen
      exact .inl (by omega)
    · exact .inr (by rw [← List.head?_drop, htail]; rfl)
  · rintro ⟨hb, hend⟩
    obtain ⟨hlt, rfl⟩ := List.getElem?_eq_some_iff.mp hb
    refine ⟨text.drop (pos + 1), List.drop_eq_getElem_cons hlt, ?_⟩
    rcases hend with hend | hend
    · exact .inl (List.drop_of_length_le hend.ge)
    · obtain ⟨hlt', hcomma⟩ := List.getElem?_eq_some_iff.mp hend
      exact .inr ⟨text.drop (pos + 1 + 1), by rw [List.drop_eq_getElem_cons hlt', hcomma]⟩

/-- A lone digit after the key is the whole of token 0. -/
theorem parseTok_zero_of_parseFixed {text : List Byte} {v : Byte} (h : parseFixed text (keyLength text + 1) = .ok v) :
    parseTok text 0 = .ok v := by
  obtain ⟨b, rest, hdrop, hd, hrest, rfl⟩ := parseFixed_ok_iff.mp h
  have htok : (tokens text)[0]? = some [b] := by
    rw [tokens, hdrop]
    rcases hrest with rfl | ⟨more, rfl⟩
    · rw [splitCommas_of_notMem (comma_notMem_digit hd), List.getElem?_cons_zero]
    · rw [← List.singleton_append, splitCommas_append (comma_notMem_digit hd), List.getElem?_cons_zero]
  rw [parseTok, htok]
  exact parseDec_digit hd

/-- Settles O19: a digit and a rest of the line that is empty or begins with a comma. -/
theorem fixedFieldIsLoneDigit : Obligations.FixedFieldIsLoneDigit := by
  refine ⟨fun text pos v => ?_, fun _ _ _ => parseFixed_error, fun _ _ => parseTok_zero_of_parseFixed⟩
  rw [parseFixed_ok_iff]
  constructor
  · rintro ⟨b, rest, hdrop, hd, hrest, hv⟩
    obtain ⟨hb, hend⟩ := drop_lineRest_iff.mp ⟨rest, hdrop, hrest⟩
    obtain ⟨hlow, hhigh⟩ := isDigit_iff.mp hd
    exact ⟨b, hb, hlow, hhigh, (eq_ofNat_digitValue_iff hd).mp hv, hend⟩
  · rintro ⟨b, hb, hlow, hhigh, hv, hend⟩
    have hd := isDigit_iff.mpr ⟨hlow, hhigh⟩
    obtain ⟨rest, hdrop, hrest⟩ := drop_lineRest_iff.mpr ⟨hb, hend⟩
    exact ⟨b, rest, hdrop, hd, hrest, (eq_ofNat_digitValue_iff hd).mpr hv⟩

/-! ## Tokens (R81, R136) -/

/-- Settles O20: both readers look the token up and read it as a number. -/
theorem optionalAndRequiredTokens : Obligations.OptionalAndRequiredTokens := by
  intro text j
  refine ⟨fun hj => ?_, fun t ht => ?_⟩
  · have hnone : (tokens text)[j]? = none := List.getElem?_eq_none hj
    rw [optTok, parseTok, hnone]
    exact ⟨rfl, rfl⟩
  · have hopt : optTok text j = parseDec t := by rw [optTok, ht]
    have hreq : parseTok text j = parseDec t := by rw [parseTok, ht]
    refine ⟨hopt, hreq, fun hn => ?_⟩
    rw [hopt, hreq, parseDec_of_not_numericToken hn]
    exact ⟨rfl, rfl⟩

end Sys2Proof.Machine

namespace Sys2Proof.Machine

/-! ## The reference Word Writer under a legal layout (R83, R84, R147) -/

/-- Settles O36, by unfolding each call and its placements. -/
theorem routineFieldsInOrder : Obligations.RoutineFieldsInOrder :=
  ⟨fun _ => ⟨rfl, rfl, rfl, rfl⟩, fun _ _ _ _ _ _ => ⟨rfl, rfl, rfl, rfl⟩⟩

/-- Bit `j` of a field placed at `(hi, c)` stands in element `hi - j` (R84). -/
theorem elemAt_wordWrite_of_placed {c : Config} {l : Layout} (hw : c.wordWriter = .reference l)
    (hc : configLegal c = true) (word : Word) {o : Byte} {call : WriterCall} {bp : Byte × Placement}
    (hbp : bp ∈ placedFields l o call) {j : Nat} (hj : j < bp.2.c) :
    elemAt (wordWrite c word o call) (bp.2.hi - j) = bp.1.getLsbD j := by
  obtain ⟨hin, hdis⟩ := placedFields_legal hw hc o call
  obtain ⟨_, hrange⟩ := placementInWord_iff.mp (hin bp hbp)
  obtain ⟨hlow, hhigh⟩ := hrange (by omega)
  have hcov : covers bp.2 (bp.2.hi - j) := ⟨by omega, by omega⟩
  rw [wordWrite_reference hw, elemAt_writeFields_of_covered (by omega) hdis hbp hcov, Nat.sub_sub_self (by omega)]

/-- Settles O38: the placements of a legal layout are disjoint, so no later field overwrites an earlier one. -/
theorem referenceWordHoldsFields : Obligations.ReferenceWordHoldsFields := fun c _ word o call hw hc _ =>
  ⟨length_wordWrite c word o call, fun _ hbp _ hj => elemAt_wordWrite_of_placed hw hc word hbp hj⟩

/-- Placing a byte where the word is clear adds its low bits at their weight. -/
theorem unsignedSum_placeBits_of_clear {n : Nat} {p : Placement} (hp : placementInWord n p = true) (b : Byte)
    {word : Word} (hclear : ∀ k, covers p k → elemAt word k = false) :
    unsignedSum (placeBits n b word p.c p.hi) n = unsignedSum word n + b.toNat % 2 ^ p.c * 2 ^ (n - 1 - p.hi) := by
  obtain ⟨_, hrange⟩ := placementInWord_iff.mp hp
  rcases Nat.eq_zero_or_pos p.c with hzero | hpos
  · have hsame : unsignedSum (placeBits n b word p.c p.hi) n = unsignedSum word n :=
      unsignedSum_congr fun k hk => by rw [elemAt_placeBits hk, if_neg (by omega)]
    rw [hsame, hzero, pow_zero, Nat.mod_one, zero_mul, add_zero]
  · obtain ⟨hlow, hhigh⟩ := hrange hpos
    have hold : (∑ j ∈ Finset.range p.c, if elemAt word (p.hi + 1 - p.c + j) then 2 ^ (p.c - 1 - j) else 0) = 0 :=
      Finset.sum_eq_zero fun j hj => by
        have hj := Finset.mem_range.mp hj
        rw [hclear _ ⟨by omega, by omega⟩]
        rfl
    have hnumber := unsignedSum_placeBits hhigh hlow b word
    rwa [hold, zero_mul, add_zero] at hnumber

/-- Placing one field leaves clear what a disjoint placement covers. -/
theorem placeBits_keeps_clear {n : Nat} {p q : Placement} (hdis : disjoint p q) (b : Byte) {word : Word}
    (hclear : ∀ k, covers q k → elemAt word k = false) {k : Nat} (hk : covers q k) :
    elemAt (placeBits n b word p.c p.hi) k = false := by
  rcases Nat.lt_or_ge k n with hlt | hge
  · rw [elemAt_placeBits hlt, if_neg fun hp => hdis k ⟨hp, hk⟩]
    exact hclear k hk
  · exact elemAt_of_length_le (by rwa [length_placeBits])

/-- Fields written where the word is clear add up. -/
theorem unsignedSum_writeFields {n : Nat} {fields : List (Byte × Placement)}
    (hin : ∀ bp ∈ fields, placementInWord n bp.2 = true) (hdis : (fields.map Prod.snd).Pairwise disjoint) {word : Word}
    (hclear : ∀ bp ∈ fields, ∀ k, covers bp.2 k → elemAt word k = false) :
    unsignedSum (writeFields n word fields) n =
      unsignedSum word n + (fields.map fun bp => bp.1.toNat % 2 ^ bp.2.c * 2 ^ (n - 1 - bp.2.hi)).sum := by
  induction fields generalizing word with
  | nil => rfl
  | cons bp rest ih =>
    rw [List.map_cons, List.pairwise_cons] at hdis
    obtain ⟨hbp, hdis⟩ := hdis
    have hrest := ih (word := placeBits n bp.1 word bp.2.c bp.2.hi) (fun q hq => hin q (List.mem_cons_of_mem _ hq)) hdis
      fun q hq k hk => placeBits_keeps_clear (hbp q.2 (List.mem_map_of_mem hq)) bp.1
        (hclear q (List.mem_cons_of_mem _ hq)) hk
    rw [writeFields_cons, hrest, unsignedSum_placeBits_of_clear (hin bp List.mem_cons_self) bp.1
      (hclear bp List.mem_cons_self), List.map_cons, List.sum_cons, add_assoc]

theorem unsignedSum_of_clear {word : Word} (h : ∀ k, elemAt word k = false) (n : Nat) : unsignedSum word n = 0 :=
  Finset.sum_eq_zero fun k _ => by rw [h k]; rfl

/-- Settles O39: the number of a word is additive over fields written to clear elements. -/
theorem referenceWordNumber : Obligations.ReferenceWordNumber := by
  intro c l word o call hw hc _ hzero
  obtain ⟨hin, hdis⟩ := placedFields_legal hw hc o call
  rw [wordWrite_reference hw, unsignedSum_writeFields hin hdis fun _ _ k _ => hzero k, unsignedSum_of_clear hzero,
    zero_add]

/-! ## Layouts that R83 forbids -/

theorem step_refused_of_illegal {s : State} (h : ¬ configLegal s.config = true) :
    step s = .refused .illegalConfiguration := if_pos (Bool.not_eq_true _ ▸ h)

/-- A configuration that is not refused has legal placements for each of the four routines. -/
theorem placementsLegal_of_configLegal {c : Config} {l : Layout} (hw : c.wordWriter = .reference l)
    (hc : configLegal c = true) :
    placementsLegal c.params.wordW (lsPlacements l.ls) = true ∧
      placementsLegal c.params.wordW (arith2Placements l.arith2) = true ∧
      placementsLegal c.params.wordW (shiftPlacements l.shift) = true ∧
      placementsLegal c.params.wordW (ioPlacements l.io) = true := by
  simp only [configLegal, hw, layoutLegal, Bool.and_eq_true, and_assoc] at hc
  exact hc.2

/-- Settles O49: legal placements lie in the word and share no element. -/
theorem illegalLayoutRefused : Obligations.IllegalLayoutRefused := by
  intro s l hw
  refine ⟨fun p hp hbad => step_refused_of_illegal fun hc => ?_,
    fun ps hps i j p q k hij hi hj hpk hpc hqk hqc => step_refused_of_illegal fun hc => ?_⟩ <;>
    obtain ⟨hls, harith, hshift, hio⟩ := placementsLegal_of_configLegal hw hc
  · have hin : placementInWord s.config.params.wordW p = true := by
      rcases hp with hp | hp | hp | hp
      · exact (placementsLegal_spec hls).1 p hp
      · exact (placementsLegal_spec harith).1 p hp
      · exact (placementsLegal_spec hshift).1 p hp
      · exact (placementsLegal_spec hio).1 p hp
    have hrange := placementInWord_iff.mp hin
    omega
  · have hlegal : placementsLegal s.config.params.wordW ps = true := by
      rcases hps with rfl | rfl | rfl | rfl
      exacts [hls, harith, hshift, hio]
    obtain ⟨_, hdis⟩ := placementsLegal_spec hlegal
    obtain ⟨hi', rfl⟩ := List.getElem?_eq_some_iff.mp hi
    obtain ⟨hj', rfl⟩ := List.getElem?_eq_some_iff.mp hj
    exact List.pairwise_iff_getElem.mp hdis i j hi' hj' hij k ⟨⟨hpk, hpc⟩, hqk, hqc⟩

/-! ## "LDA,1,200" (R85) -/

/-- The line of scenario 1: "LDA,1,200". -/
def scenarioOneText : List Byte := [0x4C#8, 0x44#8, 0x41#8, 0x2C#8, 0x31#8, 0x2C#8, 0x32#8, 0x30#8, 0x30#8]

theorem keyOf_scenarioOneText : keyOf scenarioOneText = some (.three 0x4C#8 0x44#8 0x41#8) := by decide

theorem parseThree_scenarioOneText :
    parseThree scenarioOneText = .ok { DecodedFields.zero with generalRegister := 1, address := 200 } := by decide

/-- A request of format THREE whose fields parse is answered with them and the word of the LS routine (R139, R145). -/
theorem requestResponse_packThree {c : Config} {r : Request} {o : Byte} {fs : DecodedFields} (hop : r.op = opPack)
    (hs : selectPack c r = .ok (.three, o)) (hp : parseThree r.text = .ok fs) :
    requestResponse c r = .success (.pack
      { format := .three, routine := .ls, opcode := o, fields := fs,
        word := wordWrite c r.wordA o (.ls fs.generalRegister fs.indexRegister fs.indirection fs.address) }) := by
  rw [requestResponse, decodeRequest_pack hop hs]
  simp only [packInstr, Instr.response, hp]
  rfl

/-- Settles O35: the lookup and the fields do not depend on the layout, and each placed field is in the word. -/
theorem scenarioOneForEveryLayout : Obligations.ScenarioOneForEveryLayout := by
  intro c r o hop hlen hmax hline hfmt hopc
  have htext : r.text = scenarioOneText := by rw [Request.text, hlen]; exact hline
  have hkey : keyOf r.text = some (.three 0x4C#8 0x44#8 0x41#8) := htext ▸ keyOf_scenarioOneText
  have hsel : selectPack c r = .ok (.three, o) :=
    selectPack_ok_iff.mpr ⟨by omega, Registry.selects_iff.mpr ⟨_, hkey, hfmt, hopc⟩⟩
  refine ⟨_, requestResponse_packThree hop hsel (htext ▸ parseThree_scenarioOneText), rfl, rfl, rfl, rfl, ?_⟩
  intro layout hw hc
  have haddress : (200#8, layout.ls.address) ∈ placedFields layout o (.ls 1 0 0 200) := by
    simp [placedFields, lsPlacements]
  have hopcode : (o, layout.ls.opcode) ∈ placedFields layout o (.ls 1 0 0 200) := List.mem_cons_self
  exact ⟨fun h8 _ hj => elemAt_wordWrite_of_placed hw hc r.wordA haddress (Nat.lt_of_lt_of_le hj h8),
    fun _ hj => elemAt_wordWrite_of_placed hw hc r.wordA hopcode hj⟩

/-! ## Codes on the wires (R68 to R71) -/

theorem responseWires_success_err (p : Params) (r : Result) : (responseWires p (.success r)).err = 0 := by
  cases r <;> rfl

theorem responseWires_failure_err (p : Params) (e : Err) : (responseWires p (.failure e)).err = errCode e := rfl

/-- Codes 6 and 7 name no error. -/
theorem errCode_ne (e : Err) : errCode e ≠ 6 ∧ errCode e ≠ 7 := by
  cases e <;> decide

/-- Settles O41, by cases on the response. -/
theorem errorCodesOnWires : Obligations.ErrorCodesOnWires := by
  refine ⟨responseWires_success_err, fun p => ⟨rfl, rfl, rfl, rfl, rfl⟩, fun p r => ?_⟩
  cases r with
  | success r =>
    rw [responseWires_success_err]
    decide
  | failure e => exact errCode_ne e

/-- Every routine code is used (R69). -/
theorem exists_routineCode (b : BitVec 2) : ∃ r, routineCode r = b := by
  have hcode : b = 0 ∨ b = 1 ∨ b = 2 ∨ b = 3 := by
    revert b
    decide
  rcases hcode with rfl | rfl | rfl | rfl
  · exact ⟨.ls, rfl⟩
  · exact ⟨.arith2, rfl⟩
  · exact ⟨.shift, rfl⟩
  · exact ⟨.io, rfl⟩

/-- Settles O43: coding a format and reading the code back are inverse, and the rest is evaluation. -/
theorem formatAndRoutineCodes : Obligations.FormatAndRoutineCodes :=
  ⟨rfl, rfl, rfl, rfl, rfl, rfl, rfl, rfl, Format.ofCode_code, Format.code_ofCode, exists_routineCode,
    rfl, rfl, rfl, rfl, rfl, rfl, rfl, rfl, rfl, rfl, rfl, rfl⟩

end Sys2Proof.Machine

namespace Sys2Proof.Machine

/-! ## The grammar of R88 -/

/-- The tokens begin with one that reads as a number, and those after it meet `P`. -/
def tokThen (P : List (List Byte) → Prop) (ts : List (List Byte)) : Prop := (∃ v, readTok ts 0 = .ok v) ∧ P ts.tail

/-- The first of the tokens is absent or reads as a number (R81). -/
def optRead (ts : List (List Byte)) : Prop := ∃ v, readOpt ts 0 = .ok v

/-- Nothing more is read (R76). -/
abbrev anyTokens (_ : List (List Byte)) : Prop := True

theorem not_tokThen_nil (P : List (List Byte) → Prop) : ¬ tokThen P [] := by
  rintro ⟨⟨v, hv⟩, _⟩
  cases hv

/-- The end of a line of ONE or TWO after its last required number: nothing, or a comma and an indirection (R88). -/
def optionalNumber (tail : List Byte) : Prop :=
  tail = [] ∨ ∃ i rest, tail = charComma :: (i ++ rest) ∧ numericToken i ∧ lineRest rest

/-! ### From tokens to text -/

theorem tokThen_any_iff {t : List Byte} :
    tokThen anyTokens (splitCommas t) ↔ ∃ n rest, t = n ++ rest ∧ numericToken n ∧ lineRest rest := by
  rw [tokThen, readTok_zero_iff, and_true]

theorem optRead_splitCommas_iff {t : List Byte} :
    optRead (splitCommas t) ↔ ∃ n rest, t = n ++ rest ∧ numericToken n ∧ lineRest rest := by
  rw [optRead, readOpt_splitCommas, readTok_zero_iff]

/-- A number, a comma, and a text that the next required token begins. -/
theorem tokThen_required_iff {t : List Byte} {P : List (List Byte) → Prop} (hP : ¬ P []) :
    tokThen P (splitCommas t) ↔
      ∃ n more, t = n ++ charComma :: more ∧ numericToken n ∧ P (splitCommas more) := by
  rw [tokThen, readTok_then_iff]
  constructor
  · rintro ⟨n, tail, rfl, hn, ⟨_, hnil⟩ | ⟨more, rfl, hmore⟩⟩
    · exact absurd hnil hP
    · exact ⟨n, more, rfl, hn, hmore⟩
  · rintro ⟨n, more, rfl, hn, hmore⟩
    exact ⟨n, _, rfl, hn, .inr ⟨more, rfl, hmore⟩⟩

/-- A number and perhaps a comma and a second one. -/
theorem tokThen_optional_iff {t : List Byte} :
    tokThen optRead (splitCommas t) ↔ ∃ n tail, t = n ++ tail ∧ numericToken n ∧ optionalNumber tail := by
  have hnil : optRead [] := ⟨0, rfl⟩
  rw [tokThen, readTok_then_iff]
  simp only [optRead_splitCommas_iff, hnil, and_true]
  constructor
  · rintro ⟨n, tail, rfl, hn, rfl | ⟨more, rfl, i, rest, rfl, hi⟩⟩
    · exact ⟨n, [], rfl, hn, .inl rfl⟩
    · exact ⟨n, _, rfl, hn, .inr ⟨i, rest, rfl, hi⟩⟩
  · rintro ⟨n, tail, rfl, hn, rfl | ⟨i, rest, rfl, hi⟩⟩
    · exact ⟨n, [], rfl, hn, .inl rfl⟩
    · exact ⟨n, _, rfl, hn, .inr ⟨_, rfl, i, rest, rfl, hi⟩⟩

/-! ### From parsers to tokens -/

/-- The digit of a line at `pos` is read, and its tokens after token 0 meet `P`. -/
def fixedThen (pos : Nat) (P : List (List Byte) → Prop) (text : List Byte) : Prop :=
  (∃ v, parseFixed text pos = .ok v) ∧ P (tokens text).tail

section
variable {text : List Byte}

theorem parseOne_ok_iff : (∃ y, parseOne text = .ok y) ↔ fixedThen 4 (tokThen (tokThen optRead)) text := by
  simp [parseOne, bind_ok_iff, parseTok_succ, optTok_succ, readTok_succ, readOpt_succ, fixedThen, tokThen, optRead]

theorem parseTwo_ok_iff : (∃ y, parseTwo text = .ok y) ↔ fixedThen 4 (tokThen optRead) text := by
  simp [parseTwo, bind_ok_iff, parseTok_succ, optTok_succ, readOpt_succ, fixedThen, tokThen, optRead]

theorem parseThree_ok_iff : (∃ y, parseThree text = .ok y) ↔ fixedThen 4 (tokThen anyTokens) text := by
  simp [parseThree, bind_ok_iff, parseTok_succ, fixedThen, tokThen]

theorem parseFour_ok_iff : (∃ y, parseFour text = .ok y) ↔ numericToken (text.drop 4) := by
  simp [parseFour, bind_ok_iff, parseDec_ok_iff]

theorem parseFive_ok_iff : (∃ y, parseFive text = .ok y) ↔ ∃ v, parseFixed text 4 = .ok v := by
  simp [parseFive, bind_ok_iff]

theorem parseSix_ok_iff : (∃ y, parseSix text = .ok y) ↔ fixedThen 4 (tokThen anyTokens) text := by
  simp [parseSix, bind_ok_iff, parseTok_succ, fixedThen, tokThen]

theorem parseSeven_ok_iff :
    (∃ y, parseSeven text = .ok y) ↔ fixedThen 4 (tokThen (tokThen (tokThen anyTokens))) text := by
  simp [parseSeven, bind_ok_iff, parseTok_succ, readTok_succ, fixedThen, tokThen]

theorem parseEight_ok_iff :
    (∃ y, parseEight text = .ok y) ↔ fixedThen (keyLength text + 1) (tokThen anyTokens) text := by
  simp [parseEight, bind_ok_iff, parseTok_succ, fixedThen, tokThen]

/-- A line with a 3-character key, its digit, and tokens of which one at least is required. -/
theorem fixedThen_three_iff {P : List (List Byte) → Prop} (hP : ¬ P []) (hk : keyLength text = 3) :
    fixedThen 4 P text ↔ ∃ a b d s g more, text = a :: b :: d :: s :: g :: charComma :: more ∧
      0x30 ≤ g.toNat ∧ g.toNat ≤ 0x39 ∧ P (splitCommas more) := by
  rw [fixedThen, fixed_then_tokens (by rw [hk]) hP]
  constructor
  · rintro ⟨g, more, hdrop, hg, hmore⟩
    obtain ⟨a, b, d, s, htext⟩ := (drop_four_iff (List.cons_ne_nil _ _)).mp hdrop
    obtain ⟨hlow, hhigh⟩ := isDigit_iff.mp hg
    exact ⟨a, b, d, s, g, more, htext, hlow, hhigh, hmore⟩
  · rintro ⟨a, b, d, s, g, more, rfl, hlow, hhigh, hmore⟩
    exact ⟨g, more, rfl, isDigit_iff.mpr ⟨hlow, hhigh⟩, hmore⟩

/-- The same with the key "IN". -/
theorem fixedThen_two_iff {P : List (List Byte) → Prop} (hP : ¬ P []) (hk : keyLength text = 2) :
    fixedThen 3 P text ↔ ∃ s g more, text = charI :: charN :: s :: g :: charComma :: more ∧
      0x30 ≤ g.toNat ∧ g.toNat ≤ 0x39 ∧ P (splitCommas more) := by
  rw [fixedThen, fixed_then_tokens (by rw [hk]) hP]
  constructor
  · rintro ⟨g, more, hdrop, hg, hmore⟩
    obtain ⟨s, htext⟩ := (drop_three_iff (List.cons_ne_nil _ _) hk).mp hdrop
    obtain ⟨hlow, hhigh⟩ := isDigit_iff.mp hg
    exact ⟨s, g, more, htext, hlow, hhigh, hmore⟩
  · rintro ⟨s, g, more, rfl, hlow, hhigh, hmore⟩
    exact ⟨g, more, rfl, isDigit_iff.mpr ⟨hlow, hhigh⟩, hmore⟩

/-- A 3-character key, the digit and one number, whatever follows after a comma. -/
theorem fixedThen_oneToken_iff (hk : keyLength text = 3) :
    fixedThen 4 (tokThen anyTokens) text ↔
      ∃ a b d s g n rest, text = a :: b :: d :: s :: g :: charComma :: (n ++ rest) ∧
        0x30 ≤ g.toNat ∧ g.toNat ≤ 0x39 ∧ numericToken n ∧ lineRest rest := by
  rw [fixedThen_three_iff (not_tokThen_nil _) hk]
  simp only [tokThen_any_iff]
  constructor
  · rintro ⟨a, b, d, s, g, _, htext, hlow, hhigh, n, rest, rfl, hn, hrest⟩
    exact ⟨a, b, d, s, g, n, rest, htext, hlow, hhigh, hn, hrest⟩
  · rintro ⟨a, b, d, s, g, n, rest, htext, hlow, hhigh, hn, hrest⟩
    exact ⟨a, b, d, s, g, _, htext, hlow, hhigh, n, rest, rfl, hn, hrest⟩

end

/-! ### The statements -/

/-- Settles O34: FOUR reads one number from position 4, FIVE the digit alone. -/
theorem grammarOfTokenlessFormats : Obligations.GrammarOfTokenlessFormats := by
  intro c o w text _
  refine ⟨(packResponse_success_iff.trans parseFour_ok_iff).trans ⟨fun hn => ?_, ?_⟩,
    ((packResponse_success_iff.trans parseFive_ok_iff).trans parseFixed_succeeds_iff).trans ⟨?_, ?_⟩⟩
  · obtain ⟨a, b, d, s, htext⟩ := (drop_four_iff hn.1).mp rfl
    exact ⟨a, b, d, s, _, htext, hn⟩
  · rintro ⟨a, b, d, s, n, rfl, hn⟩
    exact hn
  · rintro ⟨g, rest, hdrop, hg, hrest⟩
    obtain ⟨a, b, d, s, htext⟩ := (drop_four_iff (List.cons_ne_nil _ _)).mp hdrop
    obtain ⟨hlow, hhigh⟩ := isDigit_iff.mp hg
    exact ⟨a, b, d, s, g, rest, htext, hlow, hhigh, hrest⟩
  · rintro ⟨a, b, d, s, g, rest, rfl, hlow, hhigh, hrest⟩
    exact ⟨g, rest, rfl, isDigit_iff.mpr ⟨hlow, hhigh⟩, hrest⟩

/-- Settles O32: the three formats read the same line under a 3-character key, EIGHT also one that begins "IN". -/
theorem grammarOfOneTokenFormats : Obligations.GrammarOfOneTokenFormats := by
  refine fun c o w text => ⟨fun hk => ?_, fun hk => ?_⟩
  · have haccepted := fixedThen_oneToken_iff hk
    have height := parseEight_ok_iff (text := text)
    rw [hk] at height
    exact ⟨(packResponse_success_iff.trans parseThree_ok_iff).trans haccepted,
      (packResponse_success_iff.trans parseSix_ok_iff).trans haccepted,
      (packResponse_success_iff.trans height).trans haccepted⟩
  · have height := parseEight_ok_iff (text := text)
    rw [hk, fixedThen_two_iff (not_tokThen_nil _) hk] at height
    simp only [tokThen_any_iff] at height
    refine (packResponse_success_iff.trans height).trans ⟨?_, ?_⟩
    · rintro ⟨s, g, _, htext, hlow, hhigh, n, rest, rfl, hn, hrest⟩
      exact ⟨s, g, n, rest, htext, hlow, hhigh, hn, hrest⟩
    · rintro ⟨s, g, n, rest, htext, hlow, hhigh, hn, hrest⟩
      exact ⟨s, g, _, htext, hlow, hhigh, n, rest, rfl, hn, hrest⟩

/-- Settles O33, token by token from the left. -/
theorem grammarOfManyTokenFormats : Obligations.GrammarOfManyTokenFormats := by
  intro c o w text hk
  refine ⟨(packResponse_success_iff.trans parseOne_ok_iff).trans ?_,
    (packResponse_success_iff.trans parseTwo_ok_iff).trans ?_,
    (packResponse_success_iff.trans parseSeven_ok_iff).trans ?_⟩
  · rw [fixedThen_three_iff (not_tokThen_nil _) hk]
    simp only [tokThen_required_iff (not_tokThen_nil _), tokThen_optional_iff]
    constructor
    · rintro ⟨a, b, d, s, g, _, htext, hlow, hhigh, n, _, rfl, hn, m, tail, rfl, hm, htail⟩
      exact ⟨a, b, d, s, g, n, m, tail, htext, hlow, hhigh, hn, hm, htail⟩
    · rintro ⟨a, b, d, s, g, n, m, tail, htext, hlow, hhigh, hn, hm, htail⟩
      exact ⟨a, b, d, s, g, _, htext, hlow, hhigh, n, _, rfl, hn, m, tail, rfl, hm, htail⟩
  · rw [fixedThen_three_iff (not_tokThen_nil _) hk]
    simp only [tokThen_optional_iff]
    constructor
    · rintro ⟨a, b, d, s, g, _, htext, hlow, hhigh, n, tail, rfl, hn, htail⟩
      exact ⟨a, b, d, s, g, n, tail, htext, hlow, hhigh, hn, htail⟩
    · rintro ⟨a, b, d, s, g, n, tail, htext, hlow, hhigh, hn, htail⟩
      exact ⟨a, b, d, s, g, _, htext, hlow, hhigh, n, tail, rfl, hn, htail⟩
  · rw [fixedThen_three_iff (not_tokThen_nil _) hk]
    simp only [tokThen_required_iff (not_tokThen_nil _), tokThen_any_iff]
    constructor
    · rintro ⟨a, b, d, s, g, _, htext, hlow, hhigh, n, _, rfl, hn, m, _, rfl, hm, i, rest, rfl, hi, hrest⟩
      exact ⟨a, b, d, s, g, n, m, i, rest, htext, hlow, hhigh, hn, hm, hi, hrest⟩
    · rintro ⟨a, b, d, s, g, n, m, i, rest, htext, hlow, hhigh, hn, hm, hi, hrest⟩
      exact ⟨a, b, d, s, g, _, htext, hlow, hhigh, n, _, rfl, hn, m, _, rfl, hm, i, rest, rfl, hi, hrest⟩

end Sys2Proof.Machine

namespace Sys2Proof.Machine

/-! ## The answers of the converter, width by width (R100)

A width outside `[1, VMAX]` is answered before any other step; at a valid width each operation has one answer, which the
proofs below cite. -/

section
variable {s : State} {w sw dw : Nat}

theorem exec_toUnsigned_of_badWidth (h : w < 1 ∨ s.config.params.vmax < w) (bits : BitVector) :
    exec (.toUnsigned bits w) s = .next (s.respond (.failure .invalidArgument)) := by
  rw [exec_eq_respond, Instr.response, toUnsignedResponse, if_pos (widthOk_eq_false_iff.mpr h)]

theorem exec_toSigned_of_badWidth (h : w < 1 ∨ s.config.params.vmax < w) (bits : BitVector) :
    exec (.toSigned bits w) s = .next (s.respond (.failure .invalidArgument)) := by
  rw [exec_eq_respond, Instr.response, toSignedResponse, if_pos (widthOk_eq_false_iff.mpr h)]

theorem exec_fromInteger_of_badWidth (h : w < 1 ∨ s.config.params.vmax < w) (v : Int) :
    exec (.fromInteger v w) s = .next (s.respond (.failure .invalidArgument)) := by
  rw [exec_eq_respond, Instr.response, fromIntegerResponse, if_pos (widthOk_eq_false_iff.mpr h)]

theorem exec_resize_of_badWidth (h : sw < 1 ∨ s.config.params.vmax < sw ∨ dw < 1 ∨ s.config.params.vmax < dw)
    (bits : BitVector) : exec (.resize bits sw dw) s = .next (s.respond (.failure .invalidArgument)) := by
  rw [← or_assoc, ← widthOk_eq_false_iff, ← widthOk_eq_false_iff] at h
  rw [exec_eq_respond, Instr.response, resizeResponse]
  rcases h with hsource | hdest
  · rw [if_pos hsource]
  · rw [if_pos hdest, ite_self]

/-- At a valid width only the sum decides between TO_UNSIGNED's two answers. -/
theorem exec_toUnsigned_of_width (h1 : 1 ≤ w) (h2 : w ≤ s.config.params.vmax) (bits : BitVector) :
    exec (.toUnsigned bits w) s = .next (s.respond
      (if 2 ^ (s.config.params.intW - 1) - 1 < unsignedSum bits w then .failure .widthOverflow
        else .success (.int (unsignedSum bits w)))) := by
  rw [exec_eq_respond, Instr.response, toUnsignedResponse, widthOk_iff.mpr ⟨h1, h2⟩, if_neg (by decide),
    unsignedValue_eq_sum]

theorem exec_toSigned_of_width (h1 : 1 ≤ w) (h2 : w ≤ s.config.params.vmax) (bits : BitVector) :
    exec (.toSigned bits w) s = .next (s.respond (.success (.int (signedSum bits w)))) := by
  rw [exec_eq_respond, Instr.response, toSignedResponse, widthOk_iff.mpr ⟨h1, h2⟩, if_neg (by decide),
    signedValue_eq_signedSum h2]

theorem exec_fromInteger_of_width (h1 : 1 ≤ w) (h2 : w ≤ s.config.params.vmax) (v : Int) :
    exec (.fromInteger v w) s = .next (s.respond (.success (.vector (integerVector s.config.params.vmax v w)))) := by
  rw [exec_eq_respond, Instr.response, fromIntegerResponse, widthOk_iff.mpr ⟨h1, h2⟩, if_neg (by decide)]

theorem exec_resize_of_widths (hs1 : 1 ≤ sw) (hs2 : sw ≤ s.config.params.vmax) (hd1 : 1 ≤ dw)
    (hd2 : dw ≤ s.config.params.vmax) (bits : BitVector) :
    exec (.resize bits sw dw) s =
      .next (s.respond (.success (.vector (resizeVector s.config.params.vmax bits sw dw)))) := by
  rw [exec_eq_respond, Instr.response, resizeResponse, widthOk_iff.mpr ⟨hs1, hs2⟩, widthOk_iff.mpr ⟨hd1, hd2⟩,
    if_neg (by decide), if_neg (by decide)]

/-- TO_UNSIGNED answers an integer only at a valid width, and then the sum. -/
theorem toUnsigned_succeeds {bits : BitVector} {u : Int}
    (h : exec (.toUnsigned bits w) s = .next (s.respond (.success (.int u)))) :
    1 ≤ w ∧ w ≤ s.config.params.vmax ∧ u = unsignedSum bits w := by
  by_cases hbad : w < 1 ∨ s.config.params.vmax < w
  · rw [exec_toUnsigned_of_badWidth hbad, Host.Outcome.next.injEq, State.respond_inj] at h
    cases h
  have h1 : 1 ≤ w := by omega
  have h2 : w ≤ s.config.params.vmax := by omega
  rw [exec_toUnsigned_of_width h1 h2, Host.Outcome.next.injEq, State.respond_inj] at h
  split at h
  · cases h
  · cases h
    exact ⟨h1, h2, rfl⟩

end

/-! ## TO_UNSIGNED -/

/-- A vector no wider than the integer port overflows it only at the full width, with element 0 set (R101). -/
theorem unsignedSum_overflow_iff {bits : BitVector} {w n : Nat} (hw : 1 ≤ w) (hn : w ≤ n) :
    2 ^ (n - 1) - 1 < unsignedSum bits w ↔ w = n ∧ elemAt bits 0 = true := by
  have hpos : 1 ≤ 2 ^ (n - 1) := Nat.one_le_two_pow
  rcases Nat.eq_or_lt_of_le hn with rfl | hlt
  · rw [← two_pow_le_unsignedSum_iff hw]
    omega
  · have hsum := unsignedSum_lt bits w
    have hpow : 2 ^ w ≤ 2 ^ (n - 1) := Nat.pow_le_pow_right (by decide) (by omega)
    omega

/-- Settles O1: the sum is tested only at a valid width. -/
theorem toUnsignedAnswersWeightedSum : Obligations.ToUnsignedAnswersWeightedSum := by
  refine ⟨fun _ _ => decodeRequest_op_toUnsigned, fun s bits w => ⟨fun hbad => ?_, fun h1 h2 hfits => ?_,
    fun h1 h2 hover => ?_, fun h1 h64 hdefault => ?_⟩⟩
  · exact exec_toUnsigned_of_badWidth hbad bits
  · rw [exec_toUnsigned_of_width h1 h2, if_neg (by omega)]
  · rw [exec_toUnsigned_of_width h1 h2, if_pos hover]
  · rw [hdefault]
    exact unsignedSum_overflow_iff h1 h64

/-! ## TO_SIGNED -/

theorem signedSum_of_clear {bits : BitVector} (h : elemAt bits 0 = false) (w : Nat) :
    signedSum bits w = unsignedSum bits w := by
  simp [signedSum, h]

theorem signedSum_of_set {bits : BitVector} (h : elemAt bits 0 = true) (w : Nat) :
    signedSum bits w = unsignedSum bits w - 2 ^ w := by
  simp [signedSum, h]

/-- With element 0 set, what the value lacks of 0 is the complement's value and one more (R103). -/
theorem signedSum_eq_neg_complement {bits : BitVector} (h : elemAt bits 0 = true) (w : Nat) :
    signedSum bits w =
      -(((∑ i ∈ Finset.range w, if elemAt bits i then 0 else 2 ^ (w - 1 - i) : Nat) : Int) + 1) := by
  have hsum : ((_ + _ + 1 : Nat) : Int) = (2 ^ w : Nat) := congrArg Nat.cast (unsignedSum_add_complement bits w)
  rw [Nat.cast_add, Nat.cast_add, Nat.cast_pow] at hsum
  rw [signedSum_of_set h]
  push_cast at hsum ⊢
  linarith

/-- Settles O2: R102's steps compute the two's-complement value, which each sign turns into its own sum. -/
theorem toSignedAnswersByComplement : Obligations.ToSignedAnswersByComplement := by
  refine ⟨fun _ _ => decodeRequest_op_toSigned, fun s bits w => ⟨fun hbad => ?_, fun h1 h2 hclear => ?_,
    fun h1 h2 hset => ?_⟩⟩
  · exact exec_toSigned_of_badWidth hbad bits
  · rw [← signedSum_of_clear hclear]
    exact exec_toSigned_of_width h1 h2 bits
  · rw [← signedSum_eq_neg_complement hset]
    exact exec_toSigned_of_width h1 h2 bits

/-- Settles O3: R102's steps compute `S`, whose sign element decides which half of the range it lies in. -/
theorem toSignedIsTwosComplementValue : Obligations.ToSignedIsTwosComplementValue := fun _ bits _ h1 h2 =>
  ⟨exec_toSigned_of_width h1 h2 bits, signedSum_bounds h1⟩

/-! ## FROM_INTEGER -/

/-- Below the width FROM_INTEGER's elements are the bits of the residue, the most significant first (R105). -/
theorem elemAt_integerVector_of_lt {vmax w i : Nat} {v : Int} (hw : w ≤ vmax) (hi : i < w) :
    elemAt (integerVector vmax v w) i = (v % 2 ^ w).toNat.testBit (w - 1 - i) := by
  rw [elemAt_integerVector hw, decide_eq_true hi, Bool.true_and]

/-- The bits of a residue modulo `2^w`: the value's own, or for a negative value the complement of the bits of its
magnitude less one (R104, R105). -/
theorem testBit_emod_two_pow {w j : Nat} (hj : j < w) (v : Int) :
    (v % 2 ^ w).toNat.testBit j = if 0 ≤ v then v.toNat.testBit j else !((-v).toNat - 1).testBit j := by
  split
  case isTrue hv => simp [emod_two_pow_of_nonneg hv, hj]
  case isFalse hv =>
    rw [emod_two_pow_of_neg (by omega), Nat.testBit_two_pow_sub_succ (Nat.mod_lt _ (by positivity))]
    simp [hj]

/-- Settles O4: the elements are the bits of the residue, read off the value by its sign. -/
theorem fromIntegerAnswersBits : Obligations.FromIntegerAnswersBits := by
  refine ⟨fun _ _ => decodeRequest_op_fromInteger, fun s v w => ⟨fun hbad => ?_, fun h1 h2 => ?_⟩⟩
  · exact exec_fromInteger_of_badWidth hbad v
  · refine ⟨_, exec_fromInteger_of_width h1 h2 v, length_integerVector _ _ _, fun i hi => ?_, fun i hi => ?_⟩
    · rw [elemAt_integerVector_of_lt h2 hi, testBit_emod_two_pow (by omega)]
    · rw [elemAt_integerVector h2, decide_eq_false (by omega), Bool.false_and]

/-- Settles O5: both of R104's paths write the residue. -/
theorem fromIntegerIsModulo : Obligations.FromIntegerIsModulo := fun _ v _ h1 h2 =>
  ⟨_, exec_fromInteger_of_width h1 h2 v, length_integerVector _ _ _,
    fun _ => elemAt_integerVector_of_lt h2, unsignedSum_integerVector h2 v⟩

/-! ## RESIZE -/

/-- Settles O6: the source and destination meet element by element, aligned at the least significant end. -/
theorem resizeAnswersAlignedElements : Obligations.ResizeAnswersAlignedElements := by
  refine ⟨fun _ _ => decodeRequest_op_resize, fun s src sw dw => ⟨fun hbad => ?_, fun hs1 hs2 hd1 hd2 => ?_⟩⟩
  · exact exec_resize_of_badWidth hbad src
  refine ⟨_, exec_resize_of_widths hs1 hs2 hd1 hd2 src, length_resizeVector _ _ _ _,
    fun hgrow => ⟨fun j hj => ?copied, fun i hi => ?padding⟩, fun hshrink j hj => ?kept, fun i hi => ?above⟩
  case copied =>
    rw [elemAt_resizeVector_grow hd2 hgrow, decide_eq_true (by omega), Bool.true_and, Nat.add_sub_cancel_left]
  case padding => rw [elemAt_resizeVector_grow hd2 hgrow, decide_eq_false (by omega), Bool.false_and]
  case kept => rw [elemAt_resizeVector_shrink hd2 hshrink, decide_eq_true hj, Bool.true_and]
  case above => rw [elemAt_resizeVector hd2, decide_eq_false (by omega), Bool.false_and]

/-- Settles O7: a source no wider than the destination has a value below `2^dw`, which the residue keeps. -/
theorem resizeKeepsValueModulo : Obligations.ResizeKeepsValueModulo := by
  intro s src sw dw hs1 hs2 hd1 hd2
  have hmod := unsignedSum_resizeVector hd2 sw src
  refine ⟨_, exec_resize_of_widths hs1 hs2 hd1 hd2 src, hmod, fun hgrow => ?_⟩
  rw [hmod, Nat.mod_eq_of_lt ((unsignedSum_lt src sw).trans_le (Nat.pow_le_pow_right (by decide) hgrow))]

/-! ## TEST_BIT -/

/-- Settles O8: a byte's bit is a binary digit of its number. -/
theorem testBitAnswersBitOfByte : Obligations.TestBitAnswersBitOfByte := by
  refine ⟨fun _ _ => decodeRequest_op_testBit, fun s b k => ⟨fun hbad => ?_, fun hk => ?_⟩⟩
  · rw [exec_eq_respond, Instr.response, testBitResponse, if_pos hbad]
  · rw [exec_eq_respond, Instr.response, testBitResponse, if_neg (by omega), BitVec.getLsbD,
      Nat.testBit_eq_decide_div_mod_eq]

/-! ## COPY_BITS -/

/-- A field inside the word is placed, and so is a field of no bits wherever it is said to stand. -/
theorem exec_copyBits_of_inWord {s : State} {c h : Nat} (hc : c ≤ 8)
    (hin : 0 < c → h < s.config.params.wordW ∧ c ≤ h + 1) (b : Byte) (wd : Word) :
    exec (.copyBits b wd c h) s =
      .next (s.respond (.success (.word (placeBits s.config.params.wordW b wd c h)))) := by
  rw [exec_eq_respond, Instr.response, copyBitsResponse, if_neg (by omega), if_neg (by omega)]

/-- Placing no bits changes nothing. -/
theorem placeBits_zero {n : Nat} {wd : Word} (hlen : wd.length = n) (b : Byte) (h : Nat) :
    placeBits n b wd 0 h = wd := by
  refine eq_of_elemAt_eq (by rw [length_placeBits, hlen]) fun k hk => ?_
  rw [length_placeBits] at hk
  rw [elemAt_placeBits hk, if_neg (by omega)]

/-- Outside the field the placed word has the old elements, also past its end. -/
theorem elemAt_placeBits_of_outside {n c h k : Nat} {wd : Word} (hlen : wd.length = n) (b : Byte)
    (hk : k + c ≤ h ∨ h < k) : elemAt (placeBits n b wd c h) k = elemAt wd k := by
  rcases Nat.lt_or_ge k n with hlt | hge
  · rw [elemAt_placeBits hlt, if_neg (by omega)]
  · rw [elemAt_of_length_le (by rwa [length_placeBits]), elemAt_of_length_le (by rwa [hlen])]

/-- Settles O9: the two checks in their order, then the placed field element by element. -/
theorem copyBitsAnswersField : Obligations.CopyBitsAnswersField := by
  refine ⟨fun _ _ => decodeRequest_op_copyBits, fun s b wd c h => ⟨fun hbad => ?_, fun hc hpos hbad => ?_,
    fun hzero hlen => ?_, fun hc hpos hin hlow hlen => ?_⟩⟩
  · rw [exec_eq_respond, Instr.response, copyBitsResponse, if_pos hbad]
  · rw [exec_eq_respond, Instr.response, copyBitsResponse, if_neg (by omega), if_pos ⟨hpos, hbad⟩]
  · subst hzero
    rw [exec_copyBits_of_inWord (by decide) (by omega), placeBits_zero hlen]
  · refine ⟨_, exec_copyBits_of_inWord hc (fun _ => ⟨hin, hlow⟩) b wd,
      length_placeBits _ _ _ _ _, fun i hi => ?_, fun k hk => elemAt_placeBits_of_outside hlen b hk⟩
    rw [elemAt_placeBits (by omega), if_pos (by omega), Nat.sub_sub_self (by omega)]

/-- Settles O10: the field and the elements around it are weighed apart. -/
theorem copyBitsChangesNumber : Obligations.CopyBitsChangesNumber := fun _ b wd _ _ hc _ hin hlow _ =>
  ⟨_, exec_copyBits_of_inWord hc (fun _ => ⟨hin, hlow⟩) b wd, unsignedSum_placeBits hin hlow b wd⟩

/-! ## Round trips through FROM_INTEGER -/

/-- `S` and `U` agree modulo `2^w`. -/
theorem signedSum_modEq_unsignedSum (bits : BitVector) (w : Nat) :
    signedSum bits w ≡ unsignedSum bits w [ZMOD 2 ^ w] := by
  cases h : elemAt bits 0 with
  | false => rw [signedSum_of_clear h]
  | true => rw [signedSum_of_set h]; exact Int.sub_modulus_modEq_iff.mpr rfl

/-- The signed value survives the width exactly when it is in the width's range: it is the one number of that range
with the value's residue. -/
theorem signedSum_integerVector_eq_iff {vmax w : Nat} (h1 : 1 ≤ w) (h2 : w ≤ vmax) {v : Int} :
    signedSum (integerVector vmax v w) w = v ↔ -(2 ^ (w - 1) : Int) ≤ v ∧ v < 2 ^ (w - 1) := by
  have hbounds := signedSum_bounds (bv := integerVector vmax v w) h1
  refine ⟨fun heq => by rwa [heq] at hbounds, fun hv => ?_⟩
  have hmod : signedSum (integerVector vmax v w) w ≡ v [ZMOD 2 ^ w] :=
    (signedSum_modEq_unsignedSum _ w).trans (by rw [unsignedSum_integerVector h2]; exact Int.mod_modEq v _)
  have hpow : (2 : Int) ^ w = 2 * 2 ^ (w - 1) := by rw [← pow_succ']; congr 1; omega
  exact (sub_eq_zero.mp (Int.eq_zero_of_abs_lt_dvd hmod.dvd (abs_lt.mpr ⟨by omega, by omega⟩))).symm

/-- Settles O13: the value is in the range in which FROM_INTEGER's vector has it back as `S`. -/
theorem signedRoundTrip : Obligations.SignedRoundTrip := by
  intro s v w h1 h2 hlow hhigh
  refine ⟨_, exec_fromInteger_of_width h1 h2 v, ?_⟩
  rw [exec_toSigned_of_width h1 h2, (signedSum_integerVector_eq_iff h1 h2).mpr ⟨hlow, hhigh⟩]

/-- Settles O14: a value below `2^w` is its own residue, and its bound keeps TO_UNSIGNED from overflowing. -/
theorem unsignedRoundTrip : Obligations.UnsignedRoundTrip := by
  intro s u w h1 h2 hnonneg hlt hport
  have hsum := unsignedSum_integerVector h2 u
  rw [Int.emod_eq_of_lt hnonneg hlt] at hsum
  have hfits : unsignedSum (integerVector s.config.params.vmax u w) w < 2 ^ (s.config.params.intW - 1) := by
    zify
    rwa [hsum]
  refine ⟨_, exec_fromInteger_of_width h1 h2 u, ?_⟩
  rw [exec_toUnsigned_of_width h1 h2, if_neg (by omega), hsum]

/-- The most negative value is written as 1 followed by zeros. -/
theorem elemAt_integerVector_mostNegative {vmax w i : Nat} (h2 : w ≤ vmax) (hi : i < w) :
    elemAt (integerVector vmax (-(2 ^ (w - 1))) w) i = decide (i = 0) := by
  have hneg : ¬ (0 : Int) ≤ -(2 ^ (w - 1)) := not_le.mpr (neg_neg_of_pos (by positivity))
  have hmagnitude : ((2 : Int) ^ (w - 1)).toNat = 2 ^ (w - 1) := Int.toNat_natCast (2 ^ (w - 1))
  rw [elemAt_integerVector_of_lt h2 hi, testBit_emod_two_pow (by omega), if_neg hneg, neg_neg, hmagnitude,
    Nat.testBit_two_pow_sub_one, ← decide_not, decide_eq_decide]
  omega

/-- Settles O15: TO_SIGNED reads from the given elements what it reads from FROM_INTEGER's vector, and the most negative
value is in range. -/
theorem mostNegativeRoundTrip : Obligations.MostNegativeRoundTrip := by
  intro s w h1 h2
  have helem : ∀ i, i < w → elemAt (integerVector s.config.params.vmax (-(2 ^ (w - 1))) w) i = decide (i = 0) :=
    fun i => elemAt_integerVector_mostNegative h2
  refine ⟨⟨_, exec_fromInteger_of_width h1 h2 _, helem 0 h1,
    fun i hi hw => (helem i hw).trans (decide_eq_false (by omega))⟩, fun bits hset hclear => ?_⟩
  have hagree : ∀ i, i < w → elemAt bits i = elemAt (integerVector s.config.params.vmax (-(2 ^ (w - 1))) w) i := by
    intro i hi
    rw [helem i hi]
    rcases Nat.eq_zero_or_pos i with rfl | hpos
    · exact hset
    · rw [hclear i hpos hi, decide_eq_false (by omega)]
  have hrange : -(2 ^ (w - 1) : Int) ≤ -(2 ^ (w - 1)) ∧ -(2 ^ (w - 1) : Int) < 2 ^ (w - 1) :=
    ⟨le_rfl, neg_lt_self (by positivity)⟩
  rw [exec_toSigned_of_width h1 h2, signedSum_congr hagree h1, (signedSum_integerVector_eq_iff h1 h2).mpr hrange]

/-! ## Resizing by two requests -/

/-- RESIZE answers FROM_INTEGER's vector of any integer with the source's residue. -/
theorem resizeVector_eq_integerVector {vmax sw dw : Nat} (hd : dw ≤ vmax) {bits : BitVector} {v : Int}
    (h : v ≡ unsignedSum bits sw [ZMOD 2 ^ dw]) : resizeVector vmax bits sw dw = integerVector vmax v dw := by
  refine eq_of_elemAt_eq (by simp) fun i _ => ?_
  rw [elemAt_resizeVector hd, elemAt_integerVector hd, h, emod_two_pow_of_nonneg (Int.natCast_nonneg _),
    Int.toNat_natCast, Nat.testBit_mod_two_pow]
  by_cases hi : i < dw
  · rw [decide_eq_true (p := dw - 1 - i < dw) (by omega), Bool.true_and]
  · rw [decide_eq_false hi, Bool.false_and, Bool.false_and]

/-- The bits of the signed value: the elements from the least significant one on, and above them the sign element, which
is where `sw - 1 - j` stops. -/
theorem testBit_signedSum_emod {w j : Nat} (hj : j < w) (bits : BitVector) (sw : Nat) :
    (signedSum bits sw % 2 ^ w).toNat.testBit j = elemAt bits (sw - 1 - j) := by
  have hlt : (unsignedSum bits sw : Int) < 2 ^ sw := by exact_mod_cast unsignedSum_lt bits sw
  have hbeyond : ¬ j < sw → elemAt bits (sw - 1 - j) = elemAt bits 0 := fun h => by congr 1; omega
  rw [testBit_emod_two_pow hj]
  cases hsign : elemAt bits 0 with
  | false =>
    rw [signedSum_of_clear hsign, if_pos (Int.natCast_nonneg _), Int.toNat_natCast, testBit_unsignedSum]
    by_cases hjs : j < sw <;> simp [hjs, hbeyond, hsign]
  | true =>
    have hmagnitude : (-((unsignedSum bits sw : Int) - 2 ^ sw)).toNat - 1 = 2 ^ sw - (unsignedSum bits sw + 1) := by
      rw [neg_sub, show (2 : Int) ^ sw = (2 ^ sw : Nat) from (Nat.cast_pow 2 sw).symm, Int.toNat_sub, Nat.sub_sub]
    rw [signedSum_of_set hsign, if_neg (by omega), hmagnitude, Nat.testBit_two_pow_sub_succ (unsignedSum_lt bits sw),
      testBit_unsignedSum]
    by_cases hjs : j < sw <;> simp [hjs, hbeyond, hsign]

/-- Settles O11: FROM_INTEGER's elements are the bits of the signed value, so growing copies the sign element upward;
shrinking is RESIZE because `S` and `U` have the same residue. -/
theorem signedResizeByTwoRequests : Obligations.SignedResizeByTwoRequests := by
  intro s bits sw dw hs1 hs2 hd1 hd2
  refine ⟨signedSum bits sw, _, exec_toSigned_of_width hs1 hs2 bits, exec_fromInteger_of_width hd1 hd2 _,
    unsignedSum_integerVector hd2 _, fun hgrow i hi => ?grow, fun hshrink => ?shrink, ?survives⟩
  case grow =>
    rw [elemAt_integerVector_of_lt hd2 hi, testBit_signedSum_emod (by omega), ← apply_ite (elemAt bits)]
    congr 1
    split <;> omega
  case shrink =>
    rw [exec_resize_of_widths hs1 hs2 hd1 hd2, resizeVector_eq_integerVector hd2
      ((signedSum_modEq_unsignedSum bits sw).of_dvd (pow_dvd_pow 2 hshrink.le))]
  case survives =>
    rw [exec_toSigned_of_width hd1 hd2, Host.Outcome.next.injEq, State.respond_inj, Response.success.injEq,
      Result.int.injEq, signedSum_integerVector_eq_iff hd1 hd2]

/-- Settles O12: RESIZE writes the integer TO_UNSIGNED answers at the new width. -/
theorem unsignedResizeByTwoRequests : Obligations.UnsignedResizeByTwoRequests := by
  intro s bits sw dw u hd1 hd2 hu
  obtain ⟨hs1, hs2, rfl⟩ := toUnsigned_succeeds hu
  refine ⟨?_, _, exec_resize_of_widths hs1 hs2 hd1 hd2 bits, fun i hi => ?_⟩
  · rw [exec_fromInteger_of_width hd1 hd2, exec_resize_of_widths hs1 hs2 hd1 hd2,
      resizeVector_eq_integerVector hd2 (Int.ModEq.refl _)]
  · rw [elemAt_resizeVector hd2, decide_eq_true hi, Bool.true_and]

end Sys2Proof.Machine

namespace Sys2Proof.Machine

/-! ## The order of the fields (R147) -/

/-- Fields whose placements share no element give the same word in any order: each element holds the bit of the one field
that covers it, or its starting value. -/
theorem writeFields_perm {n : Nat} {fields fields' : List (Byte × Placement)} (hperm : fields.Perm fields')
    (hdis : (fields.map Prod.snd).Pairwise disjoint) {word : Word} (hlen : word.length = n) :
    writeFields n word fields = writeFields n word fields' := by
  have hdis' : (fields'.map Prod.snd).Pairwise disjoint :=
    ((hperm.map Prod.snd).pairwise_iff fun h k hk => h k hk.symm).mp hdis
  refine eq_of_elemAt_eq (by rw [length_writeFields hlen, length_writeFields hlen]) fun k hk => ?_
  rw [length_writeFields hlen] at hk
  by_cases hcov : ∃ bp ∈ fields, covers bp.2 k
  · obtain ⟨bp, hbp, hcov⟩ := hcov
    rw [elemAt_writeFields_of_covered hk hdis hbp hcov,
      elemAt_writeFields_of_covered hk hdis' (hperm.mem_iff.mp hbp) hcov]
  · have hunc : ∀ bp ∈ fields, ¬ covers bp.2 k := fun bp hbp h => hcov ⟨bp, hbp, h⟩
    rw [elemAt_writeFields_of_uncovered hk hunc,
      elemAt_writeFields_of_uncovered hk fun bp hbp => hunc bp (hperm.mem_iff.mpr hbp)]

/-- An element no placement covers has its starting value, also past the end of the word. -/
theorem elemAt_wordWrite_of_uncovered {c : Config} {l : Layout} (hw : c.wordWriter = .reference l) {word : Word}
    (hlen : word.length = c.params.wordW) {o : Byte} {call : WriterCall} {k : Nat}
    (h : ∀ bp ∈ placedFields l o call, ¬ covers bp.2 k) : elemAt (wordWrite c word o call) k = elemAt word k := by
  rcases Nat.lt_or_ge k c.params.wordW with hlt | hge
  · rw [wordWrite_reference hw, elemAt_writeFields_of_uncovered hlt h]
  · rw [elemAt_of_length_le (by rwa [length_wordWrite]), elemAt_of_length_le (by rwa [hlen])]

/-- Settles O37: the placements of a legal layout lie in the word, so no step fails, and share no element, so the order
of the steps does not matter. -/
theorem referenceWriterIsCopyBits : Obligations.ReferenceWriterIsCopyBits := by
  intro s l word o call hw hc hlen
  obtain ⟨hin, hdis⟩ := placedFields_legal hw hc o call
  refine ⟨fun bp hbp wd _ => ?_, fun bp rest => writeFields_cons _ word bp rest, rfl, fun fields hperm => ?_,
    fun k hk => elemAt_wordWrite_of_uncovered hw hlen hk⟩
  · obtain ⟨hcount, hrange⟩ := placementInWord_iff.mp (hin bp hbp)
    exact exec_copyBits_of_inWord hcount (fun hpos => (hrange hpos).symm) bp.1 wd
  · rw [wordWrite_reference hw, writeFields_perm hperm.symm hdis hlen]

/-! ## The tokens of a line (R135) -/

/-- Splitting by its pieces: the last one, which no comma follows, or one up to a comma and the pieces after it. -/
theorem splitCommas_induction {motive : List Byte → List (List Byte) → Prop}
    (last : ∀ n, charComma ∉ n → motive n [n])
    (more : ∀ n m, charComma ∉ n → motive m (splitCommas m) → motive (n ++ charComma :: m) (n :: splitCommas m))
    (t : List Byte) : motive t (splitCommas t) := by
  obtain ⟨n, hn, ⟨ht, hs⟩ | ⟨m, ht, hs⟩⟩ := splitCommas_cases t
  · rw [hs, ht]
    exact last n hn
  · rw [hs, ht]
    exact more n m hn (splitCommas_induction last more m)
termination_by t.length
decreasing_by rw [ht, List.length_append, List.length_cons]; omega

/-- The pieces join back to the text. -/
theorem intercalate_splitCommas (t : List Byte) : [charComma].intercalate (splitCommas t) = t := by
  induction t using splitCommas_induction with
  | last n _ => exact List.intercalate_singleton
  | more n m _ ih => rw [List.intercalate_cons_of_ne_nil (splitCommas_ne_nil m), ih, List.append_assoc]; rfl

/-- There is one piece more than commas. -/
theorem length_splitCommas (t : List Byte) : (splitCommas t).length = t.count charComma + 1 := by
  induction t using splitCommas_induction with
  | last n hn => rw [List.count_eq_zero_of_not_mem hn]; rfl
  | more n m hn ih =>
    rw [List.length_cons, ih, List.count_append, List.count_eq_zero_of_not_mem hn, List.count_cons_self, zero_add]

/-- No piece holds a comma. -/
theorem comma_notMem_of_mem_splitCommas (t : List Byte) : ∀ piece ∈ splitCommas t, charComma ∉ piece := by
  induction t using splitCommas_induction with
  | last n hn => exact List.forall_mem_singleton.mpr hn
  | more n m hn ih => exact List.forall_mem_cons.mpr ⟨hn, ih⟩

/-- Settles O17, by induction on the pieces of the text. -/
theorem tokensAreCommaPieces : Obligations.TokensAreCommaPieces :=
  ⟨fun text => ⟨intercalate_splitCommas text, length_splitCommas text, comma_notMem_of_mem_splitCommas text⟩,
    splitCommas_nil, fun _ => rfl⟩

end Sys2Proof.Machine

namespace Sys2Proof

open Sys2Proof.Machine

/-! ## The key of a line (R132) -/

theorem keyLength_of_in (rest : List Byte) : keyLength (charI :: charN :: rest) = 2 := if_pos ⟨by simp, rfl, rfl⟩

theorem keyLength_of_not_in {a b : Byte} (h : ¬ (a = charI ∧ b = charN)) (rest : List Byte) :
    keyLength (a :: b :: rest) = 3 := if_neg fun hin => h hin.2

theorem two_le_keyLength (text : List Byte) : 2 ≤ keyLength text := by
  rw [keyLength]
  split <;> decide

/-- A line has no key exactly when it is shorter than its key (R133). -/
theorem keyOf_eq_none_iff {text : List Byte} : keyOf text = none ↔ text.length < keyLength text := by
  rw [keyOf]
  split
  case isTrue hshort => exact iff_of_true rfl hshort
  case isFalse hlong => split <;> exact iff_of_false (Option.some_ne_none _) hlong

theorem keyOf_of_in (rest : List Byte) : keyOf (charI :: charN :: rest) = some (.two charI charN) := by
  have hlong : ¬ (charI :: charN :: rest).length < 2 := by simp
  rw [keyOf, keyLength_of_in, if_neg hlong, if_pos rfl]
  rfl

theorem keyOf_of_not_in {a b : Byte} (h : ¬ (a = charI ∧ b = charN)) (d : Byte) (rest : List Byte) :
    keyOf (a :: b :: d :: rest) = some (.three a b d) := by
  have hlong : ¬ (a :: b :: d :: rest).length < 3 := by simp
  rw [keyOf, keyLength_of_not_in h, if_neg hlong, if_neg (by decide)]
  rfl

/-- Settles O21: whether a line begins with "IN" gives its key's length, and then its key. -/
theorem keyOfLine : Obligations.KeyOfLine := by
  refine ⟨fun rest => ⟨keyOf_of_in rest, keyLength_of_in rest⟩,
    fun a b d rest h => ⟨keyOf_of_not_in h d rest, keyLength_of_not_in h (d :: rest)⟩,
    keyOf_eq_none_iff.mpr (Nat.lt_of_lt_of_le (by decide) (two_le_keyLength [])),
    fun a => keyOf_eq_none_iff.mpr (two_le_keyLength [a]), fun a b h => keyOf_eq_none_iff.mpr ?_,
    fun _ => keyOf_eq_none_iff⟩
  rw [keyLength_of_not_in h]
  exact Nat.lt_succ_self 2

/-! ## The selection of a PACK row (R131 to R134) -/

theorem Registry.lookup_error {g : Registry} {k : Key} (h : g.lookupFormat k = none ∨ g.lookupOpcode k = none) :
    g.lookup k = .error .unknownOpcode := by
  rw [Registry.lookup]
  rcases h with hfmt | hopc
  · rw [hfmt]
  · rw [hopc]
    cases g.lookupFormat k <;> rfl

section
variable {c : Config} {r : Request}

theorem selectPack_of_too_long (h : c.params.lineMax < r.lineLen) : selectPack c r = .error .invalidArgument :=
  if_pos h

theorem selectPack_of_no_key (hfit : r.lineLen ≤ c.params.lineMax) (hk : keyOf r.text = none) :
    selectPack c r = .error .unknownOpcode := by
  rw [selectPack, if_neg (Nat.not_lt.mpr hfit), hk]

theorem selectPack_of_key {k : Key} (hfit : r.lineLen ≤ c.params.lineMax) (hk : keyOf r.text = some k) :
    selectPack c r = c.registry.lookup k := by
  rw [selectPack, if_neg (Nat.not_lt.mpr hfit), hk]

end

section
variable {s : State} {r : Request} (hc : configLegal s.config = true) (hf : fetchCycle s = .request r)
include hc hf

/-- A request that selects no row is answered with its error. -/
theorem step_of_decode_error {e : Err} (hd : decodeRequest s.config r = .error e) :
    step s = .next (s.consume.respond (.failure e)) := by
  rw [step, if_neg (by simp [hc]), hf]
  simp only [hd]
  rfl

/-- A request that selects a row runs its instruction. -/
theorem step_of_decode_ok {i : Instr} (hd : decodeRequest s.config r = .ok i) : step s = exec i s.consume := by
  rw [step, if_neg (by simp [hc]), hf]
  simp only [hd]

end

/-- Settles O22: the step answers or runs what the length check, the key and the lookup select. -/
theorem packSelectsByRegistry : Obligations.PackSelectsByRegistry := by
  intro s r hc hf hop
  refine ⟨fun hlong => ?_, fun hfit hshort => ?_, fun k hfit hk => ⟨fun habsent => ?_, fun f o hfmt hopc => ?_⟩⟩
  · exact step_of_decode_error hc hf (decodeRequest_pack_error hop (selectPack_of_too_long hlong))
  · have hsel := selectPack_of_no_key hfit (keyOf_eq_none_iff.mpr hshort)
    exact step_of_decode_error hc hf (decodeRequest_pack_error hop hsel)
  · have hsel := (selectPack_of_key hfit hk).trans (Registry.lookup_error habsent)
    exact step_of_decode_error hc hf (decodeRequest_pack_error hop hsel)
  · have hsel := (selectPack_of_key hfit hk).trans (Registry.lookup_ok_iff.mpr ⟨hfmt, hopc⟩)
    exact step_of_decode_ok hc hf (decodeRequest_pack hop hsel)

end Sys2Proof

namespace Sys2Proof.Machine

/-! ## The answers of the eight formats (R137 to R145, R149) -/

/-- The fields a format reads from a line. -/
def packFields : Format → List Byte → Except Err DecodedFields
  | .one => parseOne
  | .two => parseTwo
  | .three => parseThree
  | .four => parseFour
  | .five => parseFive
  | .six => parseSix
  | .seven => parseSeven
  | .eight => parseEight

section
variable (f : Format) {t : List Byte} (o : Byte) (w : Word) (s : State)

/-- The PACK row of a format answers with that format's fields. -/
theorem exec_packInstr (t : List Byte) :
    exec (packInstr f o t w) s = .next (s.respond (packResponse s.config f o w (packFields f t))) := by
  cases f <;> rfl

/-- Fields that can be read are answered with the word of the format's routine (R145, R148). -/
theorem exec_pack_of_fields {fs : DecodedFields} (h : packFields f t = .ok fs) :
    exec (packInstr f o t w) s = .next (s.respond (.success (.pack
      { format := f, routine := routineOf f, opcode := o, fields := fs,
        word := wordWrite s.config w o (writerCall (routineOf f) fs) }))) := by
  rw [exec_packInstr, h, packResponse]

/-- Fields that cannot be read are answered with their error alone (R149). -/
theorem exec_pack_of_malformed (h : packFields f t = .error .malformedOperand) :
    exec (packInstr f o t w) s = .next (s.respond (.failure .malformedOperand)) := by
  rw [exec_packInstr, h, packResponse]

end

section
variable {α β : Type} {x : Except Err α} {g : α → Except Err β}

/-- A parse whose last reader fails is malformed. -/
theorem bind_malformed_last (hx : ∀ {e}, x = .error e → e = .malformedOperand) :
    (∃ e, x = .error e) → (x >>= g) = .error .malformedOperand := by
  rintro ⟨e, h⟩
  rw [h, hx h]
  rfl

/-- A parse is malformed when its first reader fails or a reader of the rest does: every reader fails with
MALFORMED_OPERAND alone, so it does not matter which one fails first. -/
theorem bind_malformed {R : Err → Prop} (hx : ∀ {e}, x = .error e → e = .malformedOperand)
    (hg : ∀ a, (∃ e, R e) → g a = .error .malformedOperand) :
    (∃ e, x = .error e ∨ R e) → (x >>= g) = .error .malformedOperand := by
  rintro ⟨e, h | h⟩
  · exact bind_malformed_last hx ⟨e, h⟩
  · cases x with
    | error e' => exact bind_malformed_last hx ⟨e', rfl⟩
    | ok a => exact hg a ⟨e, h⟩

end

/-- Settles O24: a register digit, two required tokens and an optional one. -/
theorem packOneAnswers : Obligations.PackOneAnswers := by
  refine ⟨fun _ _ _ => decodeRequest_pack, fun _ _ _ => rfl,
    fun s o t w => ⟨fun gr ix addr ind hgr hix haddr hind => ?_, fun hbad => ?_⟩⟩
  · exact exec_pack_of_fields .one o w s (by rw [packFields, parseOne, hgr, hix, haddr, hind]; rfl)
  · exact exec_pack_of_malformed .one o w s (bind_malformed parseFixed_error
      (fun _ => bind_malformed parseTok_error fun _ => bind_malformed parseTok_error
        fun _ => bind_malformed_last optTok_error) hbad)

/-- Settles O25: the digit is the index register, and general_register stays 0. -/
theorem packTwoAnswers : Obligations.PackTwoAnswers := by
  refine ⟨fun _ _ _ => decodeRequest_pack, fun _ _ _ => rfl,
    fun s o t w => ⟨fun ix addr ind hix haddr hind => ?_, fun hbad => ?_⟩⟩
  · exact exec_pack_of_fields .two o w s (by rw [packFields, parseTwo, hix, haddr, hind]; rfl)
  · exact exec_pack_of_malformed .two o w s (bind_malformed parseFixed_error
      (fun _ => bind_malformed parseTok_error fun _ => bind_malformed_last optTok_error) hbad)

/-- Settles O26: the digit, the general register, and one required token. -/
theorem packThreeAnswers : Obligations.PackThreeAnswers := by
  refine ⟨fun _ _ _ => decodeRequest_pack, fun _ _ _ => rfl,
    fun s o t w => ⟨fun gr addr hgr haddr => ?_, fun hbad => ?_⟩⟩
  · exact exec_pack_of_fields .three o w s (by rw [packFields, parseThree, hgr, haddr]; rfl)
  · exact exec_pack_of_malformed .three o w s
      (bind_malformed parseFixed_error (fun _ => bind_malformed_last parseTok_error) hbad)

/-- Settles O27: one number from position 4, and neither a digit nor a token. -/
theorem packFourAnswers : Obligations.PackFourAnswers := by
  refine ⟨fun _ _ _ => decodeRequest_pack, fun _ _ _ => rfl, fun s o t w => ⟨fun addr haddr => ?_, fun hbad => ?_⟩⟩
  · exact exec_pack_of_fields .four o w s (by rw [packFields, parseFour, haddr]; rfl)
  · exact exec_pack_of_malformed .four o w s (bind_malformed_last parseDec_error hbad)

/-- Settles O28: the digit alone, so no token can make the line malformed. -/
theorem packFiveAnswers : Obligations.PackFiveAnswers := by
  refine ⟨fun _ _ _ => decodeRequest_pack, fun _ _ _ => rfl, fun s o t w => ⟨fun rx hrx => ?_, fun hbad => ?_⟩⟩
  · exact exec_pack_of_fields .five o w s (by rw [packFields, parseFive, hrx]; rfl)
  · exact exec_pack_of_malformed .five o w s (bind_malformed_last parseFixed_error hbad)

/-- Settles O29: the digit and one required token, one for each register. -/
theorem packSixAnswers : Obligations.PackSixAnswers := by
  refine ⟨fun _ _ _ => decodeRequest_pack, fun _ _ _ => rfl,
    fun s o t w => ⟨fun rx ry hrx hry => ?_, fun hbad => ?_⟩⟩
  · exact exec_pack_of_fields .six o w s (by rw [packFields, parseSix, hrx, hry]; rfl)
  · exact exec_pack_of_malformed .six o w s
      (bind_malformed parseFixed_error (fun _ => bind_malformed_last parseTok_error) hbad)

/-- Settles O30: the digit and three required tokens. -/
theorem packSevenAnswers : Obligations.PackSevenAnswers := by
  refine ⟨fun _ _ _ => decodeRequest_pack, fun _ _ _ => rfl,
    fun s o t w => ⟨fun gr count lr al hgr hcount hlr hal => ?_, fun hbad => ?_⟩⟩
  · exact exec_pack_of_fields .seven o w s (by rw [packFields, parseSeven, hgr, hcount, hlr, hal]; rfl)
  · exact exec_pack_of_malformed .seven o w s (bind_malformed parseFixed_error
      (fun _ => bind_malformed parseTok_error fun _ => bind_malformed parseTok_error
        fun _ => bind_malformed_last parseTok_error) hbad)

/-- Settles O31: the digit after the key and one required token. -/
theorem packEightAnswers : Obligations.PackEightAnswers := by
  refine ⟨fun _ _ _ => decodeRequest_pack, fun _ _ _ => rfl,
    fun s o t w => ⟨fun gr devid hgr hdevid => ?_, fun hbad => ?_⟩⟩
  · exact exec_pack_of_fields .eight o w s (by rw [packFields, parseEight, hgr, hdevid]; rfl)
  · exact exec_pack_of_malformed .eight o w s
      (bind_malformed parseFixed_error (fun _ => bind_malformed_last parseTok_error) hbad)

/-! ## The outputs of a success (R33, R148) -/

/-- Settles O42: the wires of a success are its result's own outputs. -/
theorem successDrivesDefinedOutputs : Obligations.SuccessDrivesDefinedOutputs :=
  ⟨fun c _ _ _ _ => ⟨responseWires_success_err c.params _, rfl, rfl, rfl, rfl, rfl⟩,
    fun _ => ⟨fun _ => rfl, fun _ => rfl, fun _ => rfl, fun _ => rfl⟩⟩

end Sys2Proof.Machine

namespace Sys2Proof.Machine

/-! ## The block never stops (R170, R193) -/

/-- Settles O53: under a legal configuration a cycle is held in reset or clocked, and both answer a next state. -/
theorem blockNeverStops : Obligations.BlockNeverStops := by
  intro s hs
  rcases step_legal hs.legal with ⟨_, hstep⟩ | ⟨_, hstep⟩ | ⟨_, _, hstep⟩ <;> exact ⟨_, hstep⟩

/-! ## What a run presents (R195) -/

/-- What the block is going to present while no cycle is held in reset, the next cycle first: the stages in flight, then
what each input lined up is answered. -/
def State.outputs (s : State) : List (Option Response) := s.pipeline ++ s.inputs.map (cycleResponse s.config)

/-- The state after a cycle that is not held in reset: what the next input is answered has entered the pipeline. -/
def State.advance (s : State) : State := s.consume.clock (s.inputs.head?.bind (cycleResponse s.config))

theorem run_succ_of_no_reset {s : State} (h : configLegal s.config = true)
    (hr : s.config.latency = 0 ∨ ∀ x ∈ s.inputs, x.rstN = true) (n : Nat) :
    Host.Core.run core (n + 1) s = Host.Core.run core n s.advance := run_succ (step_of_no_reset h hr)

/-- Clocking in what the next input is answered only moves it from the inputs to the pipeline; past the last input
nothing enters. -/
theorem State.getElem?_entered_join (s : State) (k : Nat) :
    ((s.pipeline ++ [s.inputs.head?.bind (cycleResponse s.config)] ++
      s.inputs.tail.map (cycleResponse s.config))[k]?).join = (s.outputs[k]?).join := by
  rw [State.outputs]
  cases s.inputs with
  | nil =>
    rcases Nat.lt_or_ge k s.pipeline.length with hk | hk
    · simp [List.getElem?_append_left hk]
    · have hentered : ∀ n : Nat, (([none] : List (Option Response))[n]?).join = none := fun n => by cases n <;> rfl
      simp [List.getElem?_append_right hk, List.getElem?_eq_none hk, hentered]
  | cons x rest => simp

/-- A cycle presents the first output. -/
theorem State.advance_rsp (s : State) : s.advance.rsp = (s.outputs[0]?).join := by
  rw [← s.getElem?_entered_join, State.advance, State.clock_rsp, State.consume_pipeline]
  cases s.pipeline <;> simp

/-- A cycle leaves the outputs after the first to be presented. -/
theorem State.advance_outputs_join (s : State) (k : Nat) :
    (s.advance.outputs[k]?).join = (s.outputs[k + 1]?).join := by
  rw [← s.getElem?_entered_join, State.outputs, State.advance]
  cases hp : s.pipeline <;> simp [hp]

/-- After LATENCY cycles the stages in flight have left, and the outputs are those of the inputs, in order. -/
theorem State.output_after_latency {s : State} (hp : s.pipeline.length = s.config.latency) (t : Nat) :
    (s.outputs[t + s.config.latency]?).join = (s.inputs[t]?).bind (cycleResponse s.config) := by
  rw [State.outputs, ← hp, List.getElem?_append_right (Nat.le_add_left _ _), Nat.add_sub_cancel, List.getElem?_map]
  cases s.inputs[t]? <;> rfl

/-- Outside reset a run presents the outputs one after another. -/
theorem run_rsp_of_no_reset {s : State} (h : configLegal s.config = true)
    (hr : s.config.latency = 0 ∨ ∀ x ∈ s.inputs, x.rstN = true) (t : Nat) :
    ∃ u, Host.Core.run core (t + 1) s = .next u ∧ u.rsp = (s.outputs[t]?).join := by
  induction t generalizing s with
  | zero => exact ⟨s.advance, run_succ_of_no_reset h hr 0, s.advance_rsp⟩
  | succ t ih =>
    have hr' : s.advance.config.latency = 0 ∨ ∀ x ∈ s.advance.inputs, x.rstN = true :=
      hr.imp_right fun hall x hx => hall x (List.mem_of_mem_tail hx)
    obtain ⟨u, hrun, hrsp⟩ := ih (s := s.advance) h hr'
    exact ⟨u, (run_succ_of_no_reset h hr (t + 1)).trans hrun, hrsp.trans (s.advance_outputs_join t)⟩

/-- What the input of cycle `t` is answered is presented LATENCY cycles later (R195). -/
theorem State.Inv.run_rsp {s : State} (hs : s.Inv) (hr : s.config.latency = 0 ∨ ∀ x ∈ s.inputs, x.rstN = true)
    (t : Nat) : ∃ u, Host.Core.run core (t + s.config.latency + 1) s = .next u ∧
      u.rsp = (s.inputs[t]?).bind (cycleResponse s.config) := by
  obtain ⟨u, hrun, hrsp⟩ := run_rsp_of_no_reset hs.legal hr (t + s.config.latency)
  exact ⟨u, hrun, hrsp.trans (State.output_after_latency hs.stages t)⟩

/-! ## Requests are independent (R177) -/

/-- Replacing an input keeps every input well formed and the state in the invariant. -/
theorem State.Inv.set_input {s : State} (hs : s.Inv) {x : CycleInput} (hx : x.req.wf s.config.params = true) (j : Nat) :
    { s with inputs := s.inputs.set j x }.Inv :=
  { hs with inputsFit := fun y hy => (List.mem_or_eq_of_mem_set hy).elim (hs.inputsFit y) fun heq => heq ▸ hx }

/-- Settles O55: the output of a cycle is a function of that cycle's input and the configuration alone, and replacing
the input of cycle `j` leaves the input of every other cycle. -/
theorem requestsAreIndependent : Obligations.RequestsAreIndependent := by
  intro s x j t hs hx hr htj
  have hr' : s.config.latency = 0 ∨ ∀ y ∈ s.inputs.set j x, y.rstN = true :=
    hr.imp_right fun ⟨hall, hhigh⟩ y hy => (List.mem_or_eq_of_mem_set hy).elim (hall y) fun heq => heq ▸ hhigh
  obtain ⟨u, hrun, hrsp⟩ := hs.run_rsp (hr.imp_right And.left) t
  obtain ⟨u', hrun', hrsp'⟩ := (hs.set_input hx j).run_rsp hr' t
  refine ⟨u, u', hrun, hrun', ?_⟩
  rw [hrsp, hrsp', List.getElem?_set_ne htj.symm]

end Sys2Proof.Machine

namespace Sys2Proof

open Sys2Proof.Machine

/-! ## The errors of each operation (R171 to R176) -/

/-- A response is a success, or reports one of these errors. -/
def Machine.Response.reportsOnly (errors : List Err) : Response → Prop
  | .success _ => True
  | .failure e => e ∈ errors

theorem Machine.Response.reportsOnly.mono {errors errors' : List Err} {y : Response} (hsub : errors ⊆ errors')
    (h : y.reportsOnly errors) : y.reportsOnly errors' := by
  cases y with
  | success r => trivial
  | failure e => exact hsub h

/-- The errors an operation lists: INVALID_OP for a reserved `op` (R175), and else INVALID_ARGUMENT (R174), to which
TO_UNSIGNED adds WIDTH_OVERFLOW (R173) and PACK its own two errors (R171, R172). -/
def errorsOfOp (op : BitVec 4) : List Err :=
  if 7 ≤ op.toNat then [.invalidOp]
  else if op = opPack then [.invalidArgument, .unknownOpcode, .malformedOperand]
  else if op = 0x0 then [.invalidArgument, .widthOverflow]
  else [.invalidArgument]

/-- The lists keep the operations' own errors apart. -/
theorem mem_errorsOfOp {op : BitVec 4} {e : Err} (h : e ∈ errorsOfOp op) :
    (e = .invalidOp → 7 ≤ op.toNat) ∧ (7 ≤ op.toNat → e = .invalidOp) ∧
      (e = .unknownOpcode ∨ e = .malformedOperand → op = opPack) ∧ (e = .widthOverflow → op = 0x0) := by
  revert op
  cases e <;> decide

/-! ### The converter -/

section
variable (c : Config) (bits : BitVector) (w : Nat)

theorem toUnsignedResponse_reportsOnly :
    (toUnsignedResponse c bits w).reportsOnly [.invalidArgument, .widthOverflow] := by
  rw [toUnsignedResponse]
  split
  · exact .head _
  split
  · exact .tail _ (.head _)
  · trivial

theorem toSignedResponse_reportsOnly : (toSignedResponse c bits w).reportsOnly [.invalidArgument] := by
  rw [toSignedResponse]
  split
  · exact .head _
  · trivial

theorem fromIntegerResponse_reportsOnly (v : Int) : (fromIntegerResponse c v w).reportsOnly [.invalidArgument] := by
  rw [fromIntegerResponse]
  split
  · exact .head _
  · trivial

theorem resizeResponse_reportsOnly (dw : Nat) : (resizeResponse c bits w dw).reportsOnly [.invalidArgument] := by
  rw [resizeResponse]
  split
  · exact .head _
  split
  · exact .head _
  · trivial

theorem testBitResponse_reportsOnly (b : Byte) (k : Nat) : (testBitResponse b k).reportsOnly [.invalidArgument] := by
  rw [testBitResponse]
  split
  · exact .head _
  · trivial

theorem copyBitsResponse_reportsOnly (b : Byte) (wd : Word) (n h : Nat) :
    (copyBitsResponse c b wd n h).reportsOnly [.invalidArgument] := by
  rw [copyBitsResponse]
  split
  · exact .head _
  split
  · exact .head _
  · trivial

end

/-! ### PACK -/

/-- A reader that fails with MALFORMED_OPERAND or not at all (R149, R172). -/
def onlyMalformed {α : Type} (x : Except Err α) : Prop := ∀ e, x = .error e → e = .malformedOperand

theorem onlyMalformed.ok {α : Type} (a : α) : onlyMalformed (.ok a) := fun _ h => by cases h

theorem onlyMalformed.bind {α β : Type} {x : Except Err α} {g : α → Except Err β} (hx : onlyMalformed x)
    (hg : ∀ a, onlyMalformed (g a)) : onlyMalformed (x >>= g) := by
  cases x with
  | error e' => exact fun e h => hx e (congrArg Except.error (Except.error.inj h))
  | ok a => exact hg a

/-- Every format reads its fields by the readers of R136, and each of these can only find its field malformed. -/
theorem packFields_onlyMalformed (f : Format) (text : List Byte) : onlyMalformed (packFields f text) := by
  have fixed (pos : Nat) : onlyMalformed (parseFixed text pos) := fun _ => parseFixed_error
  have tok (j : Nat) : onlyMalformed (parseTok text j) := fun _ => parseTok_error
  have opt (j : Nat) : onlyMalformed (optTok text j) := fun _ => optTok_error
  have number (t : List Byte) : onlyMalformed (parseDec t) := fun _ => parseDec_error
  cases f with
  | one => exact (fixed 4).bind fun _ => (tok 1).bind fun _ => (tok 2).bind fun _ => (opt 3).bind fun _ => .ok _
  | two => exact (fixed 4).bind fun _ => (tok 1).bind fun _ => (opt 2).bind fun _ => .ok _
  | three => exact (fixed 4).bind fun _ => (tok 1).bind fun _ => .ok _
  | four => exact (number _).bind fun _ => .ok _
  | five => exact (fixed 4).bind fun _ => .ok _
  | six => exact (fixed 4).bind fun _ => (tok 1).bind fun _ => .ok _
  | seven => exact (fixed 4).bind fun _ => (tok 1).bind fun _ => (tok 2).bind fun _ => (tok 3).bind fun _ => .ok _
  | eight => exact (fixed _).bind fun _ => (tok 1).bind fun _ => .ok _

theorem packInstr_response (c : Config) (f : Format) (o : Byte) (text : List Byte) (word : Word) :
    (packInstr f o text word).response c = packResponse c f o word (packFields f text) := by
  cases f <;> rfl

/-- After its row is selected a PACK request can only be malformed. -/
theorem packInstr_response_reportsOnly (c : Config) (f : Format) (o : Byte) (text : List Byte) (word : Word) :
    ((packInstr f o text word).response c).reportsOnly [.malformedOperand] := by
  rw [packInstr_response]
  cases hfields : packFields f text with
  | error e => exact List.mem_singleton.mpr (packFields_onlyMalformed f text e hfields)
  | ok fs => trivial

/-- Before its row is selected a PACK request can fail by its length or by its key (R131, R133, R134). -/
theorem selectPack_error {c : Config} {r : Request} {e : Err} (h : selectPack c r = .error e) :
    e = .invalidArgument ∨ e = .unknownOpcode := by
  rw [selectPack] at h
  split at h
  · exact .inl (Except.error.inj h).symm
  refine .inr ?_
  split at h
  · exact (Except.error.inj h).symm
  · rw [Registry.lookup] at h
    split at h
    · cases h
    · exact (Except.error.inj h).symm

/-! ### A request -/

section
variable {c : Config} {r : Request}

theorem requestResponse_of_decode_error {e : Err} (h : decodeRequest c r = .error e) :
    requestResponse c r = .failure e := by
  rw [requestResponse, h]

theorem requestResponse_of_decode_ok {i : Instr} (h : decodeRequest c r = .ok i) :
    requestResponse c r = i.response c := by
  rw [requestResponse, h]

theorem requestResponse_pack_reportsOnly (hop : r.op = opPack) :
    (requestResponse c r).reportsOnly [.invalidArgument, .unknownOpcode, .malformedOperand] := by
  cases hs : selectPack c r with
  | error e =>
    rw [requestResponse_of_decode_error (decodeRequest_pack_error hop hs)]
    rcases selectPack_error hs with rfl | rfl
    · exact .head _
    · exact .tail _ (.head _)
  | ok fo =>
    rw [requestResponse_of_decode_ok (decodeRequest_pack (f := fo.1) (o := fo.2) hop hs)]
    exact (packInstr_response_reportsOnly c ..).mono (by simp)

end

/-- An operation reports no error outside its own list (R176). -/
theorem requestResponse_reportsOnly (c : Config) (r : Request) :
    (requestResponse c r).reportsOnly (errorsOfOp r.op) := by
  rcases op_cases r.op with hop | hop | hop | hop | hop | hop | hop | hop | hop
  · rw [hop]
    exact requestResponse_pack_reportsOnly hop
  · rw [requestResponse_reserved (by omega), errorsOfOp, if_pos (by omega)]
    exact .head _
  · rw [requestResponse_of_decode_ok (decodeRequest_op_toUnsigned hop), hop]
    exact toUnsignedResponse_reportsOnly c ..
  · rw [requestResponse_of_decode_ok (decodeRequest_op_toSigned hop), hop]
    exact toSignedResponse_reportsOnly c ..
  · rw [requestResponse_of_decode_ok (decodeRequest_op_fromInteger hop), hop]
    exact fromIntegerResponse_reportsOnly c ..
  · rw [requestResponse_of_decode_ok (decodeRequest_op_resize hop), hop]
    exact resizeResponse_reportsOnly c ..
  · rw [requestResponse_of_decode_ok (decodeRequest_op_testBit hop), hop]
    exact testBitResponse_reportsOnly ..
  · rw [requestResponse_of_decode_ok (decodeRequest_op_copyBits hop), hop]
    exact copyBitsResponse_reportsOnly c ..
  · rw [requestResponse_of_decode_ok (decodeRequest_op_reservedSeven hop), hop]
    exact .head _

/-- Settles O44: the error reported is on the list of the operation, and the lists keep these errors apart. -/
theorem errorsOfEachOperation : Obligations.ErrorsOfEachOperation := by
  intro c r e h
  have hreports := requestResponse_reportsOnly c r
  rw [h] at hreports
  exact mem_errorsOfOp hreports

end Sys2Proof

namespace Sys2Proof.Machine

/-! ## Responses leave in order (R195) -/

/-- The stages in flight are the first outputs. -/
theorem State.output_before_latency {s : State} {t : Nat} (ht : t < s.pipeline.length) :
    (s.outputs[t]?).join = (s.pipeline[t]?).join := by
  rw [State.outputs, List.getElem?_append_left ht]

/-- Settles O54: outside reset a run presents the outputs one after another, first the LATENCY stages in flight, then
what each input is answered. -/
theorem responsesLeaveInOrder : Obligations.ResponsesLeaveInOrder := by
  intro s t hs hr
  refine ⟨hs.run_rsp hr t, fun ht => ?_⟩
  obtain ⟨u, hrun, hrsp⟩ := run_rsp_of_no_reset hs.legal hr t
  have hflight : t < s.pipeline.length := hs.stages ▸ ht
  exact ⟨u, hrun, hrsp.trans (State.output_before_latency hflight)⟩

/-! ## A cycle held in reset (R190) -/

/-- A block that has a reset is held in it while `rst_n` is low, whatever is presented. -/
theorem fetchCycle_held {s : State} {x : CycleInput} {rest : List CycleInput} (hs : s.inputs = x :: rest)
    (hl : 0 < s.config.latency) (hx : x.rstN = false) : fetchCycle s = .held := by
  simp only [fetchCycle, hs, if_pos (And.intro hl hx)]

/-- A cycle held in reset only consumes its input and clears the block. -/
theorem step_of_held {s : State} (h : configLegal s.config = true) (hf : fetchCycle s = .held) :
    step s = .next s.consume.hold := by
  rw [step, if_neg (by simp [h]), hf]

/-- Settles O47: the cycle is held in reset, so its request is consumed unread and no stage stays valid. -/
theorem resetDropsAndClears : Obligations.ResetDropsAndClears := by
  intro s x rest hlegal hs hl hx
  have hinputs : s.inputs.tail = rest := by rw [hs, List.tail_cons]
  exact ⟨s.consume.hold, step_of_held hlegal (fetchCycle_held hs hl hx), rfl, List.map_const', hinputs, rfl⟩

/-! ## The combinational block (R191) -/

/-- A cycle answers something exactly when a request is presented. -/
theorem cycleResponse_isSome (c : Config) (x : CycleInput) : (cycleResponse c x).isSome = x.reqValid := by
  rw [cycleResponse]
  cases x.reqValid <;> rfl

/-- With LATENCY 0 there is no pipeline stage. -/
theorem State.Inv.pipeline_eq_nil {s : State} (hs : s.Inv) (hl : s.config.latency = 0) : s.pipeline = [] :=
  List.eq_nil_of_length_eq_zero (hs.stages.trans hl)

/-- Settles O48: with no stage in the pipeline, what the cycle's input is answered is the first output. -/
theorem combinationalWhenLatencyZero : Obligations.CombinationalWhenLatencyZero := by
  intro s x rest hs hl hinputs
  have hp := hs.pipeline_eq_nil hl
  have hrsp : s.advance.rsp = cycleResponse s.config x := by
    rw [State.advance_rsp, State.outputs, hp, hinputs]
    rfl
  have hvalid : s.advance.rspValid = x.reqValid := by rw [State.rspValid, hrsp, cycleResponse_isSome]
  have hpipeline : s.advance.pipeline = [] := by
    rw [State.advance, State.clock_pipeline, State.consume_pipeline, hp]
    rfl
  have hrest : s.advance.inputs = rest := by
    rw [State.advance, State.clock_inputs, State.consume_inputs, hinputs, List.tail_cons]
  exact ⟨s.advance, step_of_no_reset hs.legal (.inl hl), hvalid, hrsp, hpipeline, hrest, rfl⟩

end Sys2Proof.Machine
